-- ==== Sys2Proof/Word.lean ====
section
/-! DEFINITION. The widths of the block's values (00_scope.md R10). -/

namespace Sys2Proof

/-- A Bit, and the level of a line: `false` is 0 (low), `true` is 1 (high) (R10). -/
abbrev Bit := Bool

/-- An unsigned 4-bit value (R10). -/
abbrev Nibble := BitVec 4

/-- An unsigned 8-bit value (R10). -/
abbrev Byte := BitVec 8

/-- A calling context (00_scope.md R12, 44_dispatch.md R82). The block checks no identity (60_exceptions.md R101): a number tells
one caller from another. -/
abbrev Caller := Nat

end Sys2Proof
end

