-- ==== Sys2Proof/Config.lean ====
section
/-! DEFINITION. What is fixed for the machine (00_scope.md R7, R8, R9) and the values the spec leaves open. -/

namespace Sys2Proof.Config

/-- N_LINES: RS, RW, EN, D4, D5, D6, D7 (R7). -/
def nLines : Nat := 7
/-- BUS_WIDTH: the data lines D4..D7 (R7). -/
def busWidth : Nat := 4
/-- N_CELLS: the cursor range is 0..79 (R7). -/
def nCells : Nat := 80
/-- CELLS_PER_LINE: informative, no rule reads it (R7). -/
def cellsPerLine : Nat := 40
/-- TEXT_MAX: most characters one text write transmits (R7). -/
def textMax : Nat := 80

/-- T_POWERON in µs (R7, 70_reset_and_hazards.md R112). -/
def tPowerOn : Nat := 40000
/-- T_INIT_GAP1 in µs (R7, R112). -/
def tInitGap1 : Nat := 5000
/-- T_INIT_GAP2 in µs (R7, R112). -/
def tInitGap2 : Nat := 100
/-- T_EN_HOLD in µs (R7, R112). -/
def tEnHold : Nat := 1
/-- T_NIBBLE_SETTLE in µs (R7, R112). -/
def tNibbleSettle : Nat := 100
/-- T_CLEAR in µs (R7, R112). -/
def tClear : Nat := 2000
/-- T_HOME in µs (R7, R112). -/
def tHome : Nat := 2000
/-- T_SHIFT in µs (R7, R112). -/
def tShift : Nat := 100
/-- T_ONOFF in µs (R7, R112). -/
def tOnOff : Nat := 100
/-- T_STABLE in µs (R7, R112). -/
def tStable : Nat := 1000000

/-- INIT_NIBBLE_A, sent three times (R7). -/
def initNibbleA : Nibble := 0x3#4
/-- INIT_NIBBLE_B, which enters 4-bit mode (R7). -/
def initNibbleB : Nibble := 0x2#4

/-- LABEL_ORDINAL_BASE, the first ordinal of the default label: OPEN in the spec (R9, 92_eei_decisions.md D23), so a free
value. Log entry 2. -/
opaque labelOrdinalBase : Nat

/-- FREE VALUE. The answers of the GPIO collaborator of one engine past the scripted ones (40_gpio_lines.md R57), by the engine's
stream and a number in it. Log entry 3. -/
opaque freeAnswer : Nat → Nat → Bool

/-- FREE VALUE. Which pending request an engine's guard admits when the inputs do not say (44_dispatch.md R84), by the engine's
stream and a number in it. Log entry 4. -/
opaque freeChoice : Nat → Nat → Nat

/-- FREE VALUE. Which engine with a pending request proceeds next when the inputs do not say (60_exceptions.md R104). Log
entry 4. -/
opaque freeTurn : Nat → Nat

/-- The named launch premise "the display was powered at least T_POWERON before INIT's first latch" (70_reset_and_hazards.md
R110, 92_eei_decisions.md D34). Nothing in the block reads it. Log entry 21. -/
opaque displayPoweredInTime : Bool

end Sys2Proof.Config

namespace Sys2Proof

/-- The eleven command bytes, named by the purpose the source gives (00_scope.md R8). -/
structure CommandBytes where
  functionSet : Byte
  displayOnCursorOn : Byte
  clear : Byte
  entryModeInc : Byte
  home : Byte
  displayShiftLeft : Byte
  displayShiftRight : Byte
  cursorShiftLeft : Byte
  cursorShiftRight : Byte
  allOn : Byte
  allOff : Byte
deriving DecidableEq, Repr

/-- The default values of R8: HD44780 datasheet encodings (93_implementation_defined.md GK1). PRESUMED, log entry 1. -/
def CommandBytes.hd44780 : CommandBytes where
  functionSet := 0x28#8
  displayOnCursorOn := 0x0E#8
  clear := 0x01#8
  entryModeInc := 0x06#8
  home := 0x02#8
  displayShiftLeft := 0x18#8
  displayShiftRight := 0x1C#8
  cursorShiftLeft := 0x10#8
  cursorShiftRight := 0x14#8
  allOn := 0x0F#8
  allOff := 0x08#8

/-- The eleven values in the order of R8's table. -/
def CommandBytes.values (c : CommandBytes) : List Byte :=
  [c.functionSet, c.displayOnCursorOn, c.clear, c.entryModeInc, c.home, c.displayShiftLeft, c.displayShiftRight,
    c.cursorShiftLeft, c.cursorShiftRight, c.allOn, c.allOff]

/-- The values are pairwise distinct, which a substitution must keep (30_encoding.md R54). -/
abbrev CommandBytes.Distinct (c : CommandBytes) : Prop := c.values.Nodup

/-- The command bytes of this machine. PRESUMED, log entry 1. -/
def Config.commandBytes : CommandBytes := CommandBytes.hd44780

end Sys2Proof
end

