-- ==== Sys2Proof/Machine/Label.lean ====
section
/-! DEFINITION. The default label "l1602-N" (10_state.md R25). -/

namespace Sys2Proof.Machine

/-- The ASCII decimal digits of `n`, most significant first, in front of `tail`; `fuel` bounds the number of digits. -/
def decimalDigits : Nat → Nat → List Byte → List Byte
  | 0, _, tail => tail
  | fuel + 1, n, tail =>
    let out := BitVec.ofNat 8 (0x30 + n % 10) :: tail
    if n < 10 then out else decimalDigits fuel (n / 10) out

/-- The decimal of `n` in ASCII. -/
def decimal (n : Nat) : List Byte := decimalDigits (n + 1) n []

/-- "l1602-N", N being the decimal ordinal (R25). -/
def defaultLabel (ordinal : Nat) : List Byte :=
  [0x6C#8, 0x31#8, 0x36#8, 0x30#8, 0x32#8, 0x2D#8] ++ decimal ordinal

end Sys2Proof.Machine
end

