-- ==== Sys2Proof/Syntax.lean ====
section
/-! DEFINITION. Requests, instructions and the words that carry them: one constructor of `Instr` per row of
spec/opcode_table.json (30_encoding.md R44 to R54). -/

namespace Sys2Proof

/-- The seven line roles, in the order of their indices 0..6 (20_memory.md R29). -/
inductive Role where
  | rs | rw | en | d4 | d5 | d6 | d7
deriving DecidableEq, Repr

/-- The direction a CONFIGURE call sets (40_gpio_lines.md R58). -/
inductive Direction where
  | input | output
deriving DecidableEq, Repr

/-- One decoded request of the host to the dispatcher (30_encoding.md R45, R46). -/
inductive Request where
  /-- `initialize()` (R67) -/
  | init
  /-- `deinitialize()` (R71) -/
  | deinit
  /-- `writeText` with its payload P of any length (R72) -/
  | text (payload : List Byte)
  | clear
  | home
  | shiftLeft
  | shiftRight
  | on
  | off
  /-- `setCursor(target)`, the target being `W[7:0]` (R48, R78) -/
  | cursor (target : Byte)
deriving DecidableEq, Repr

/-- The instructions: every row of the opcode table. -/
inductive Instr where
  -- req16, one per request
  | init
  | deinit
  | text (payload : List Byte)
  | clear
  | home
  | shiftLeft
  | shiftRight
  | on
  | off
  | cursor (target : Byte)
  -- gpio8, one call of the line multiplexer (R51): `val` is the 2-bit VAL field
  | configure (line : Role) (val : BitVec 2)
  | write (line : Role) (val : BitVec 2)
  -- latch6, the nibble transmitter (R52): `rs` is the RS bit of the latch word
  | txNibble (rs : Bit) (n : Nibble)
  -- bus10, byte transmission (R53)
  | txCommand (c : Byte)
  | txChar (b : Byte)
  -- hd8, the eleven command bytes (R54)
  | hdFunctionSet
  | hdDisplayOnCursorOn
  | hdClear
  | hdEntryModeInc
  | hdHome
  | hdDisplayShiftLeft
  | hdDisplayShiftRight
  | hdCursorShiftLeft
  | hdCursorShiftRight
  | hdAllOn
  | hdAllOff
deriving DecidableEq, Repr

/-- The instruction that serves a request. -/
def Request.toInstr : Request → Instr
  | .init => .init
  | .deinit => .deinit
  | .text p => .text p
  | .clear => .clear
  | .home => .home
  | .shiftLeft => .shiftLeft
  | .shiftRight => .shiftRight
  | .on => .on
  | .off => .off
  | .cursor t => .cursor t

/-- The five formats (30_encoding.md R44). -/
inductive Format where
  | req16 | gpio8 | latch6 | bus10 | hd8
deriving DecidableEq, Repr

/-- A word of one format, with the payload its transport carries beside it (R45, R50). -/
structure Packet where
  format : Format
  word : Nat
  payload : List Byte
deriving DecidableEq, Repr

end Sys2Proof
end

