-- ==== Sys2Proof/Machine/State.lean ====
section
/-! DEFINITION. The state (10_state.md R17, R26, R27, R28) and the inputs and outputs of the other agents (44_dispatch.md R82). -/

namespace Sys2Proof.Machine

/-- `dir[r]` (R17). -/
inductive LineDir where
  | unconf | input | output
deriving DecidableEq, Repr

/-- What one line role holds (R18): whether its handle was acquired, its direction, and the level last driven with success. -/
structure Line where
  acq : Bool
  dir : LineDir
  lvl : Option Bit
deriving DecidableEq, Repr

/-- The seven lines, one per role (R17, 40_gpio_lines.md R56). -/
structure LineSet where
  rs : Line
  rw : Line
  en : Line
  d4 : Line
  d5 : Line
  d6 : Line
  d7 : Line
deriving DecidableEq, Repr

/-- `life` (R23). -/
inductive Life where
  | constructed | ready | failed | tornDown
deriving DecidableEq, Repr

/-- The statuses (60_exceptions.md R93). -/
inductive Status where
  | ok | eArg | eHwCfg | eIo | eIntr | eState
deriving DecidableEq, Repr

/-- The reasons of the sticky `fault` (R28). -/
inductive FaultReason where
  /-- LIFECYCLE_VIOLATION with the offending request -/
  | lifecycleViolation (d : Request)
  /-- WRITE_NOT_OUTPUT with the line -/
  | writeNotOutput (r : Role)
deriving DecidableEq, Repr

/-- The events of the trace (R27). -/
inductive Event where
  /-- `Cfg(r, d, ok)` -/
  | cfg (r : Role) (d : Direction) (ok : Bool)
  /-- `Wr(r, v, ok)` -/
  | wr (r : Role) (v : Bit) (ok : Bool)
  /-- `Dly(t)`: a wait of at least t µs -/
  | dly (t : Nat)
deriving DecidableEq, Repr

/-- One member of `pending` (R17). -/
structure Pending where
  caller : Caller
  request : Request
deriving DecidableEq, Repr

/-- One engine: exactly the fields of R17. -/
structure Engine where
  lines : LineSet
  cursor : Fin 80
  life : Life
  /-- a multiset, held in order of submission: log entry 5 -/
  pending : List Pending
  label : List Byte
  /-- oldest first -/
  trace : List Event
  fault : Option FaultReason
deriving DecidableEq, Repr

/-- The answers of the GPIO collaborator of one engine (40_gpio_lines.md R57): first the listed ones, then the free values of its
own `stream`, numbered by `draws`. Log entry 3. -/
structure Oracle where
  answers : List Bool
  stream : Nat
  draws : Nat
deriving DecidableEq, Repr

/-- One engine with its collaborator: one factor of the product of independent models (60_exceptions.md R104). -/
structure Display where
  engine : Engine
  oracle : Oracle
deriving DecidableEq, Repr

/-- What a caller is given back (60_exceptions.md R93, 44_dispatch.md R90, 10_state.md R25). -/
inductive Answer where
  | status (s : Status)
  | keywords (ks : List (List Byte))
  | label (l : List Byte)
deriving DecidableEq, Repr

structure Reply where
  caller : Caller
  answer : Answer
deriving DecidableEq, Repr

/-- The host's control surfaces (44_dispatch.md R89). -/
inductive Surface where
  | cmd (keyword : List Byte)
  | text (rendered : List Byte)
  | cursor (n : Byte)
  | probe
  | removal
deriving DecidableEq, Repr

/-- One step of an agent other than a running operation (44_dispatch.md R82). `k` picks from a list, counted modulo its length. -/
inductive Input where
  /-- the host constructs an engine (70_reset_and_hazards.md R107); the inputs after it concern the new engine -/
  | construct (explicitLabel : Option (List Byte))
  /-- the inputs after it concern the `k`-th engine, the one they concern now being the first (60_exceptions.md R104) -/
  | turnTo (k : Nat)
  /-- `submit(caller, W, P)` (44_dispatch.md R83) -/
  | submit (caller : Caller) (w : BitVec 16) (payload : List Byte)
  /-- a control surface is used (R89) -/
  | surface (caller : Caller) (s : Surface)
  /-- the engine admits a pending request (R84) -/
  | admitOne (k : Nat)
  /-- the cancellation source aborts a pending request (R88) -/
  | cancel (k : Nat)
  /-- the readable surface of the keywords (R90) -/
  | readKeywords (caller : Caller)
  /-- the label accessor (10_state.md R25) -/
  | readLabel (caller : Caller)
deriving DecidableEq, Repr

/-- Why a step stops. No step of this model stops with a fault: the block has no traps (60_exceptions.md R97), and its sticky
fault is state (R28, log entry 6). -/
inductive Fault where
  /-- A level was read while it is none (R18, 93_implementation_defined.md U10). Raised by `readLevel`, which no instruction's
  rule uses ("No rule of this spec reads a level that is none"). Safe: it stops. -/
  | levelAbsent (r : Role)
deriving DecidableEq, Repr

/-- Why an instruction has no meaning. -/
inductive Refusal where
  /-- An arm of `exec` that has no meaning yet, by the instruction's mnemonic. No arm is refused. Safe: it stops. -/
  | notModelled (mnemonic : String)
deriving DecidableEq, Repr

/-- The state of the machine: the engine the inputs concern and its collaborator, the other engines with theirs, the host's
registry counter (R26), and the inputs and outputs of the other agents. -/
structure State where
  engine : Engine
  oracle : Oracle
  others : List Display
  /-- the instance counter: the ordinal the next construction takes (R26) -/
  nextOrdinal : Nat
  /-- what the other agents do next, in order. Log entry 14 -/
  inputs : List Input
  /-- a word driven alone from outside the machine; no agent's step sets it. Log entry 11 -/
  bench : Option Packet
  /-- numbers the free choices of the engine that proceeds. Log entry 4 -/
  turns : Nat
  /-- the status the last instruction returned. Log entry 15 -/
  returned : Option Status
  /-- everything given back to callers, oldest first. Log entry 15 -/
  replies : List Reply
deriving DecidableEq, Repr

/-- A line at construction (R17). -/
def Line.fresh : Line := ⟨false, .unconf, none⟩

/-- The lines at construction (R17). -/
def LineSet.fresh : LineSet := ⟨.fresh, .fresh, .fresh, .fresh, .fresh, .fresh, .fresh⟩

/-- An engine at construction: the last column of R17, with its label (70_reset_and_hazards.md R107, R108). -/
def Engine.fresh (label : List Byte) : Engine where
  lines := LineSet.fresh
  cursor := 0
  life := .constructed
  pending := []
  label := label
  trace := []
  fault := none

/-- The collaborator at construction: nothing scripted, and the free values of the engine's own stream, numbered by its ordinal.
Log entry 3. -/
def Oracle.fresh (ordinal : Nat) : Oracle := ⟨[], ordinal, 0⟩

/-- Right after reset, which is construction (70_reset_and_hazards.md R107): one engine with the default label of the first
ordinal, and nothing submitted or answered. -/
def State.reset : State where
  engine := Engine.fresh (defaultLabel Config.labelOrdinalBase)
  oracle := Oracle.fresh Config.labelOrdinalBase
  others := []
  nextOrdinal := Config.labelOrdinalBase + 1
  inputs := []
  bench := none
  turns := 0
  returned := none
  replies := []

end Sys2Proof.Machine
end

