-- ==== Sys2Proof/Machine/Flags.lean ====
section
/-! DEFINITION. The block has no condition codes (10_state.md R15). What stands for them: the status codes, the lifecycle and the
sticky fault. -/

namespace Sys2Proof.Machine

/-- The numeric code of a status (60_exceptions.md R93). -/
def statusCode (s : Status) : Nat :=
  match s with
  | .ok => 0
  | .eArg => 1
  | .eHwCfg => 2
  | .eIo => 3
  | .eIntr => 4
  | .eState => 5

/-- `lifeAllows(life, d)` (44_dispatch.md R85). -/
def lifeAllows (l : Life) (d : Request) : Bool :=
  match l, d with
  | .constructed, .init => true
  | .constructed, _ => false
  | .ready, .init => false
  | .ready, _ => true
  | .failed, _ => false
  | .tornDown, _ => false

/-- How a list of actions ended. -/
inductive Ending where
  /-- to its end: `return OK` -/
  | done
  /-- `raise E` (00_scope.md R11) -/
  | raised (s : Status)
  /-- at a write to a line that is not an output (40_gpio_lines.md R60). Log entry 7 -/
  | notOutput
deriving DecidableEq, Repr

/-- The status an ending returns. A write to a line that is not an output has none. Log entry 7. -/
def endingStatus (e : Ending) : Option Status :=
  match e with
  | .done => some .ok
  | .raised s => some s
  | .notOutput => none

/-- `life` after an operation that does not change it (10_state.md R23). -/
def lifeKept (l : Life) (_ : Ending) : Life := l

/-- `life` after INIT: READY on OK and FAILED on an error (10_state.md R23, 42_lifecycle.md R67). -/
def lifeAfterInit (_ : Life) (e : Ending) : Life :=
  match e with
  | .done => .ready
  | .raised _ => .failed
  | .notOutput => .failed

/-- `life` after DEINIT: TORN_DOWN whatever it returns (10_state.md R23, 42_lifecycle.md R71). -/
def lifeAfterDeinit (_ : Life) (_ : Ending) : Life := .tornDown

/-- Setting the sticky fault (10_state.md R28). A second fault replaces the first. Log entry 6. -/
def setFault (f : FaultReason) (e : Engine) : Engine := { e with fault := some f }

end Sys2Proof.Machine
end

