-- ==== Sys2Proof/Decode.lean ====
section
/-! DEFINITION. The decoders of the five formats, total and rejecting by name (30_encoding.md R47, R49, R51 to R54), and after them
the encoder. -/

namespace Sys2Proof

/-- Why a word is no instruction. -/
inductive Reject where
  /-- the word has a bit above its format's width -/
  | tooWide
  /-- `req16`: RSV is not 0 (R47) -/
  | reservedBits
  /-- `req16`: OP is 0x0 or 0xB..0xF (R46) -/
  | reservedOp
  /-- `req16`: ARG is not 0 for an OP other than CURSOR (R47) -/
  | argNotZero
  /-- `gpio8`: KIND is 10 or 11 (R51) -/
  | badKind
  /-- `gpio8`: LINE is 7 (R51) -/
  | badLine
  /-- `gpio8`: bit 2 is set (R51) -/
  | bitTwoSet
  /-- `latch6`, `bus10`: RW is 1, which is never produced (R52, R53) -/
  | rwHigh
  /-- `hd8`: no command byte of the block (R54) -/
  | unknownCommand
deriving DecidableEq, Repr

/-! ## Bit fields -/

/-- Bits `hi` down to `lo` of a word are `field lo (hi - lo + 1)` (00_scope.md R10). -/
abbrev field {n : Nat} (w : BitVec n) (lo len : Nat) : BitVec len := w.extractLsb' lo len

/-- The width of a format's word (30_encoding.md R44). -/
def Format.width : Format → Nat
  | .req16 => 16
  | .gpio8 => 8
  | .latch6 => 6
  | .bus10 => 10
  | .hd8 => 8

/-- The index of a role (20_memory.md R29). -/
def Role.index : Role → BitVec 3
  | .rs => 0#3
  | .rw => 1#3
  | .en => 2#3
  | .d4 => 3#3
  | .d5 => 4#3
  | .d6 => 5#3
  | .d7 => 6#3

/-- The role of an index; 7 is no line (20_memory.md R29, 30_encoding.md R51). -/
def roleOfIndex (k : BitVec 3) : Option Role :=
  match k.toNat with
  | 0 => some .rs
  | 1 => some .rw
  | 2 => some .en
  | 3 => some .d4
  | 4 => some .d5
  | 5 => some .d6
  | 6 => some .d7
  | _ => none

/-! ## The decoders -/

/-- The operations of OP 0x1..0x9 (R46). The payload is TEXT's alone (R47, R50). -/
def requestOfOp (op : BitVec 4) (payload : List Byte) : Option Request :=
  match op.toNat with
  | 1 => some .init
  | 2 => some .deinit
  | 3 => some (.text payload)
  | 4 => some .clear
  | 5 => some .home
  | 6 => some .shiftLeft
  | 7 => some .shiftRight
  | 8 => some .on
  | 9 => some .off
  | _ => none

/-- `decode(W)` of R47, with the payload the transport carries beside W. -/
def decodeReq16 (w : BitVec 16) (payload : List Byte) : Except Reject Request :=
  let op := field w 12 4
  let rsv := field w 8 4
  let arg := field w 0 8
  if rsv ≠ 0#4 then .error .reservedBits
  else if op = 0xA#4 then .ok (.cursor arg)
  else
    match requestOfOp op payload with
    | none => .error .reservedOp
    | some r => if arg = 0#8 then .ok r else .error .argNotZero

/-- The GPIO call word (R51). VAL is taken as it is: 2 and 3 are argument errors of the call, not of the word. -/
def decodeGpio8 (g : BitVec 8) : Except Reject Instr :=
  let kind := field g 6 2
  let val := field g 0 2
  if field g 2 1 ≠ 0#1 then .error .bitTwoSet
  else
    match roleOfIndex (field g 3 3) with
    | none => .error .badLine
    | some r =>
      if kind = 0#2 then .ok (.configure r val)
      else if kind = 1#2 then .ok (.write r val)
      else .error .badKind

/-- The latch word `{RS, RW, D7, D6, D5, D4}` (R52). DEDUCED, log entry 25: RW must be 0 and RS is either, although the pattern
`0b0xxxxx` that R52 gives for every latch word would have RS 0. -/
def decodeLatch6 (l : BitVec 6) : Except Reject Instr :=
  if field l 4 1 ≠ 0#1 then .error .rwHigh
  else .ok (.txNibble (decide (field l 5 1 = 1#1)) (field l 0 4))

/-- The paired byte `{RS, RW, byte}` (R53). -/
def decodeBus10 (b : BitVec 10) : Except Reject Instr :=
  if field b 8 1 ≠ 0#1 then .error .rwHigh
  else if field b 9 1 = 1#1 then .ok (.txChar (field b 0 8))
  else .ok (.txCommand (field b 0 8))

/-- The command byte (R54), over the parameters of 00_scope.md R8. -/
def decodeHd8 (c : CommandBytes) (b : Byte) : Except Reject Instr :=
  if b = c.functionSet then .ok .hdFunctionSet
  else if b = c.displayOnCursorOn then .ok .hdDisplayOnCursorOn
  else if b = c.clear then .ok .hdClear
  else if b = c.entryModeInc then .ok .hdEntryModeInc
  else if b = c.home then .ok .hdHome
  else if b = c.displayShiftLeft then .ok .hdDisplayShiftLeft
  else if b = c.displayShiftRight then .ok .hdDisplayShiftRight
  else if b = c.cursorShiftLeft then .ok .hdCursorShiftLeft
  else if b = c.cursorShiftRight then .ok .hdCursorShiftRight
  else if b = c.allOn then .ok .hdAllOn
  else if b = c.allOff then .ok .hdAllOff
  else .error .unknownCommand

/-- The instruction a packet carries, over given command bytes. -/
def decodeWith (c : CommandBytes) (p : Packet) : Except Reject Instr :=
  if 2 ^ p.format.width ≤ p.word then .error .tooWide
  else
    match p.format with
    | .req16 =>
      match decodeReq16 (BitVec.ofNat 16 p.word) p.payload with
      | .ok r => .ok r.toInstr
      | .error e => .error e
    | .gpio8 => decodeGpio8 (BitVec.ofNat 8 p.word)
    | .latch6 => decodeLatch6 (BitVec.ofNat 6 p.word)
    | .bus10 => decodeBus10 (BitVec.ofNat 10 p.word)
    | .hd8 => decodeHd8 c (BitVec.ofNat 8 p.word)

/-- The instruction a packet carries on this machine. -/
def decode (p : Packet) : Except Reject Instr := decodeWith Config.commandBytes p

/-! ## The encoder -/

/-- The OP field of a request (R46). -/
def Request.op : Request → BitVec 4
  | .init => 0x1#4
  | .deinit => 0x2#4
  | .text _ => 0x3#4
  | .clear => 0x4#4
  | .home => 0x5#4
  | .shiftLeft => 0x6#4
  | .shiftRight => 0x7#4
  | .on => 0x8#4
  | .off => 0x9#4
  | .cursor _ => 0xA#4

/-- The ARG field of a request (R45). -/
def Request.arg : Request → Byte
  | .cursor t => t
  | .init | .deinit | .text _ | .clear | .home | .shiftLeft | .shiftRight | .on | .off => 0#8

/-- The word W of a request (R45). -/
def Request.word (r : Request) : BitVec 16 := r.op ++ 0#4 ++ r.arg

/-- The payload beside W (R45, R50). -/
def Request.payload : Request → List Byte
  | .text p => p
  | .init | .deinit | .clear | .home | .shiftLeft | .shiftRight | .on | .off | .cursor _ => []

/-- The packet of a request. -/
def Request.packet (r : Request) : Packet := ⟨.req16, r.word.toNat, r.payload⟩

/-- The GPIO call word of KIND, LINE, 0, VAL (R51). -/
def gpioPacket (kind : BitVec 2) (r : Role) (val : BitVec 2) : Packet :=
  ⟨.gpio8, (kind ++ r.index ++ 0#1 ++ val : BitVec 8).toNat, []⟩

/-- The packet of a command byte (R54). -/
def hdPacket (b : Byte) : Packet := ⟨.hd8, b.toNat, []⟩

/-- The packet of an instruction, over given command bytes, from the tables of R45, R46, R51 to R54. -/
def encodeWith (c : CommandBytes) : Instr → Packet
  | .init => Request.init.packet
  | .deinit => Request.deinit.packet
  | .text p => (Request.text p).packet
  | .clear => Request.clear.packet
  | .home => Request.home.packet
  | .shiftLeft => Request.shiftLeft.packet
  | .shiftRight => Request.shiftRight.packet
  | .on => Request.on.packet
  | .off => Request.off.packet
  | .cursor t => (Request.cursor t).packet
  | .configure r v => gpioPacket 0#2 r v
  | .write r v => gpioPacket 1#2 r v
  | .txNibble rs n => ⟨.latch6, (BitVec.ofBool rs ++ 0#1 ++ n : BitVec 6).toNat, []⟩
  | .txCommand b => ⟨.bus10, (0#1 ++ 0#1 ++ b : BitVec 10).toNat, []⟩
  | .txChar b => ⟨.bus10, (1#1 ++ 0#1 ++ b : BitVec 10).toNat, []⟩
  | .hdFunctionSet => hdPacket c.functionSet
  | .hdDisplayOnCursorOn => hdPacket c.displayOnCursorOn
  | .hdClear => hdPacket c.clear
  | .hdEntryModeInc => hdPacket c.entryModeInc
  | .hdHome => hdPacket c.home
  | .hdDisplayShiftLeft => hdPacket c.displayShiftLeft
  | .hdDisplayShiftRight => hdPacket c.displayShiftRight
  | .hdCursorShiftLeft => hdPacket c.cursorShiftLeft
  | .hdCursorShiftRight => hdPacket c.cursorShiftRight
  | .hdAllOn => hdPacket c.allOn
  | .hdAllOff => hdPacket c.allOff

/-- The packet of an instruction on this machine. -/
def encode (i : Instr) : Packet := encodeWith Config.commandBytes i

/-! ## Words without a format

A word of the opcode table reaches `decodeTableWord` with its width in whole bytes and no format, so a 6-bit and an 8-bit word,
or a 10-bit and a 16-bit word, look alike. DESIGN CHOICE, log entry 12. -/

/-- The format a bare table word is read in. Ten- and sixteen-bit words never clash: a word below 0x400 has OP = 0, which `req16`
reserves. Among one-byte words a command byte is `hd8`, a character nibble (bits 7, 6, 4 clear and bit 5 set) is `latch6`, and
every other word is `gpio8`. -/
def tableFormat (nbits w : Nat) : Option Format :=
  if nbits ≤ 8 then
    if nbits ≤ 6 then some .latch6
    else if Config.commandBytes.values.contains (BitVec.ofNat 8 w) && decide (w < 256) then some .hd8
    else if 0x20 ≤ w && w < 0x30 then some .latch6
    else some .gpio8
  else if nbits ≤ 16 then
    if w < 0x400 then some .bus10 else some .req16
  else none

/-- The packet of a bare table word: operand words are zero, so a TEXT payload is empty. A width no format has gives a packet
that no decoder accepts. -/
def tablePacket (nbits w : Nat) : Packet :=
  match tableFormat nbits w with
  | some f => ⟨f, w, []⟩
  | none => ⟨.req16, 2 ^ 16 + w, []⟩

/-- The instruction the decoder reads from a bare table word. -/
def decodeTableWord (nbits w : Nat) : Option Instr :=
  match decode (tablePacket nbits w) with
  | .ok i => some i
  | .error _ => none

end Sys2Proof
end

