-- ==== Sys2Proof/WellFormed.lean ====
section
/-! DEFINITION. The argument checks of the block, as a check on instructions: an instruction is well formed when no rule answers
E_ARG to it (60_exceptions.md R93). An instruction that is not well formed still decodes and still has its meaning, the status
E_ARG. -/

namespace Sys2Proof

/-- A cursor target is a cell, 0..79 (30_encoding.md R48, 43_operations.md R78). -/
def targetOk (target : Byte) : Bool := decide (target.toNat < Config.nCells)

/-- A VAL field is a direction or a level: 0 or 1 (30_encoding.md R51). -/
def valOk (val : BitVec 2) : Bool := decide (val.toNat < 2)

/-- No rule rejects the instruction's arguments. -/
def Instr.wellFormed : Instr → Bool
  | .cursor t => targetOk t
  | .configure _ v => valOk v
  | .write _ v => valOk v
  | .init | .deinit | .text _ | .clear | .home | .shiftLeft | .shiftRight | .on | .off => true
  | .txNibble _ _ | .txCommand _ | .txChar _ => true
  | .hdFunctionSet | .hdDisplayOnCursorOn | .hdClear | .hdEntryModeInc | .hdHome | .hdDisplayShiftLeft
  | .hdDisplayShiftRight | .hdCursorShiftLeft | .hdCursorShiftRight | .hdAllOn | .hdAllOff => true

/-- `WellFormed i`: as a proposition. -/
abbrev WellFormed (i : Instr) : Prop := i.wellFormed = true

end Sys2Proof
end

