-- ==== Sys2Proof/Machine/Operands.lean ====
section
/-! DEFINITION. The operand forms: nibbles and bits of a byte, VAL fields, cursor targets and text payloads. -/

namespace Sys2Proof.Machine

/-- `b[7:4]`, the nibble sent first (20_memory.md R32). -/
def highNibble (b : Byte) : Nibble := field b 4 4

/-- `b[3:0]`, the nibble sent second (20_memory.md R32). -/
def lowNibble (b : Byte) : Nibble := field b 0 4

/-- `n[k]` (00_scope.md R10): D4 carries bit 0, D5 bit 1, D6 bit 2 and D7 bit 3 (20_memory.md R31). -/
def nibbleBit (n : Nibble) (k : Nat) : Bit := n.getLsbD k

/-- The direction of a VAL field: 0 INPUT, 1 OUTPUT, and 2 and 3 none (30_encoding.md R51, 40_gpio_lines.md R58). -/
def directionOfVal (val : BitVec 2) : Option Direction :=
  match val.toNat with
  | 0 => some .input
  | 1 => some .output
  | _ => none

/-- The level of a VAL field: 0 low, 1 high, and 2 and 3 none (30_encoding.md R51, 40_gpio_lines.md R59). -/
def levelOfVal (val : BitVec 2) : Option Bit :=
  match val.toNat with
  | 0 => some false
  | 1 => some true
  | _ => none

/-- The cell a CURSOR operand names, `zext_8(W[7:0])`; none for 80 and above (30_encoding.md R48, 43_operations.md R78). -/
def cellOfTarget (target : Byte) : Option (Fin 80) :=
  if h : target.toNat < 80 then some ⟨target.toNat, h⟩ else none

/-- The request's argument passes the check made before the guard (44_dispatch.md R83). -/
def argumentOk (r : Request) : Bool := r.toInstr.wellFormed

/-- The bytes of a payload that are transmitted: the first TEXT_MAX (43_operations.md R72). -/
def textBytes (payload : List Byte) : List Byte := payload.take Config.textMax

end Sys2Proof.Machine
end

