-- ==== Sys2Proof/Machine/Ops.lean ====
section
/-! DEFINITION. The operations every instruction is built from: lines, the GPIO collaborator's answers, the actions of the
pseudocode (00_scope.md R11), and the one place where a request is admitted, fails or violates the lifecycle. -/

namespace Sys2Proof.Machine

/-! ## Lines: the multiplexer (40_gpio_lines.md R56) -/

/-- The line of a role. -/
def lineOf (ls : LineSet) (r : Role) : Line :=
  match r with
  | .rs => ls.rs
  | .rw => ls.rw
  | .en => ls.en
  | .d4 => ls.d4
  | .d5 => ls.d5
  | .d6 => ls.d6
  | .d7 => ls.d7

/-- Put a line in a role's place. -/
def setLine (r : Role) (l : Line) (ls : LineSet) : LineSet :=
  match r with
  | .rs => { ls with rs := l }
  | .rw => { ls with rw := l }
  | .en => { ls with en := l }
  | .d4 => { ls with d4 := l }
  | .d5 => { ls with d5 := l }
  | .d6 => { ls with d6 := l }
  | .d7 => { ls with d7 := l }

/-- The level of a line, which faults while it is none (10_state.md R18). -/
def readLevel (ls : LineSet) (r : Role) : Except Fault Bit :=
  match (lineOf ls r).lvl with
  | some v => .ok v
  | none => .error (.levelAbsent r)

/-- `acq[r] <- 1` (42_lifecycle.md R67). -/
def lineAcquired (l : Line) : Line := { l with acq := true }

/-- A line after a CONFIGURE that succeeded (40_gpio_lines.md R58). -/
def lineConfigured (d : Direction) (l : Line) : Line :=
  match d with
  | .output => { l with dir := .output, lvl := some false }
  | .input => { l with dir := .input, lvl := none }

/-- A line after a WRITE that succeeded (40_gpio_lines.md R59). -/
def lineDriven (v : Bit) (l : Line) : Line := { l with lvl := some v }

/-- Change one role's line. -/
def onLine (r : Role) (f : Line → Line) (e : Engine) : Engine :=
  { e with lines := setLine r (f (lineOf e.lines r)) e.lines }

/-- Append one event to the trace (10_state.md R27). -/
def logEvent (ev : Event) (e : Engine) : Engine := { e with trace := e.trace ++ [ev] }

/-! ## The collaborator's answers (40_gpio_lines.md R57) -/

/-- The next answer. -/
def nextAnswer (o : Oracle) : Bool :=
  match o.answers with
  | a :: _ => a
  | [] => Config.freeAnswer o.stream o.draws

/-- The answers after the next one. -/
def restAnswers (o : Oracle) : Oracle :=
  match o.answers with
  | _ :: as => { o with answers := as }
  | [] => { o with draws := o.draws + 1 }

/-! ## Actions: the lines of the pseudocode -/

/-- How the cursor moves (10_state.md R21). -/
inductive CursorMove where
  /-- `cursor <- 0` -/
  | toZero
  /-- `cursor <- (cursor + 1) mod 80` (41_transmission.md R66) -/
  | advance
  /-- `cursor <- cursor + 1`, a step of setCursor (43_operations.md R78) -/
  | stepRight
  /-- `cursor <- cursor - 1`, a step of setCursor (43_operations.md R78) -/
  | stepLeft
deriving DecidableEq, Repr

/-- The actions an operation's rule lists. -/
inductive Action where
  /-- ask for the line's handle (42_lifecycle.md R67, phase 1) -/
  | acquire (r : Role)
  /-- `LineConfigure(r, d)` -/
  | configure (r : Role) (d : Direction)
  /-- `LineWrite(r, v)` -/
  | write (r : Role) (v : Bit)
  /-- `Delay(t)` -/
  | delay (t : Nat)
  | moveCursor (m : CursorMove)
deriving DecidableEq, Repr

/-- An engine and the answers to come, after some actions, and how those ended. -/
structure Run where
  engine : Engine
  oracle : Oracle
  ending : Ending
deriving DecidableEq, Repr

/-- The cursor after a move. The steps of setCursor never leave 0..79 (10_state.md R22), where no step wraps. -/
def cursorAfter (m : CursorMove) (c : Fin 80) : Fin 80 :=
  match m with
  | .toZero => 0
  | .advance => c + 1
  | .stepRight => c + 1
  | .stepLeft => c - 1

/-- Acquisition of one line: no event, and E_HWCFG when it is unavailable (42_lifecycle.md R67). -/
def acquireLine (r : Role) (e : Engine) (o : Oracle) : Run :=
  if nextAnswer o then ⟨onLine r lineAcquired e, restAnswers o, .done⟩ else ⟨e, restAnswers o, .raised .eHwCfg⟩

/-- `LineConfigure(r, d)` (40_gpio_lines.md R58). -/
def configureLine (r : Role) (d : Direction) (e : Engine) (o : Oracle) : Run :=
  let e' := logEvent (.cfg r d (nextAnswer o)) e
  if nextAnswer o then ⟨onLine r (lineConfigured d) e', restAnswers o, .done⟩ else ⟨e', restAnswers o, .raised .eHwCfg⟩

/-- `LineWrite(r, v)` (40_gpio_lines.md R59). A write to a line that is not an output sets the sticky fault and asks nothing
(R60). -/
def writeLine (r : Role) (v : Bit) (e : Engine) (o : Oracle) : Run :=
  if (lineOf e.lines r).dir = .output then
    let e' := logEvent (.wr r v (nextAnswer o)) e
    if nextAnswer o then ⟨onLine r (lineDriven v) e', restAnswers o, .done⟩ else ⟨e', restAnswers o, .raised .eIo⟩
  else ⟨setFault (.writeNotOutput r) e, o, .notOutput⟩

/-- One action. -/
def doAction (a : Action) (e : Engine) (o : Oracle) : Run :=
  match a with
  | .acquire r => acquireLine r e o
  | .configure r d => configureLine r d e o
  | .write r v => writeLine r v e o
  | .delay t => ⟨logEvent (.dly t) e, o, .done⟩
  | .moveCursor m => ⟨{ e with cursor := cursorAfter m e.cursor }, o, .done⟩

/-- The actions in order, up to the first that does not succeed (00_scope.md R11: no later event of the operation is appended). -/
def runActions : List Action → Engine → Oracle → Run
  | [], e, o => ⟨e, o, .done⟩
  | a :: as, e, o =>
    let run := doAction a e o
    match run.ending with
    | .done => runActions as run.engine run.oracle
    | .raised _ => run
    | .notOutput => run

/-! ## Errors and the end of an operation

The block has no traps: an error ends the operation and returns its status (60_exceptions.md R97). -/

/-- A status returned with nothing else changed. -/
def returning (st : Status) (s : State) : State := { s with returned := some st }

/-- An argument error: found before any hardware access, no event, no state change (60_exceptions.md R93, R94). -/
def argumentError (s : State) : State := returning .eArg s

/-- A request the lifecycle forbids: the sticky fault is set, E_STATE is returned and no event is appended (44_dispatch.md
R85). -/
def lifecycleViolation (d : Request) (s : State) : State :=
  returning .eState { s with engine := setFault (.lifecycleViolation d) s.engine }

/-- The state after a run, with the lifecycle and the status its ending gives. -/
def finish (life : Life → Ending → Life) (run : Run) (s : State) : State :=
  { s with
    engine := { run.engine with life := life run.engine.life run.ending }
    oracle := run.oracle
    returned := endingStatus run.ending }

/-- An admitted request: the lifecycle check, then its body as one atomic step (44_dispatch.md R84, R85). -/
def admitted (d : Request) (life : Life → Ending → Life) (body : List Action) (s : State) : State :=
  if lifeAllows s.engine.life d then finish life (runActions body s.engine s.oracle) s else lifecycleViolation d s

/-- A line call or a transmission primitive driven alone: no lifecycle check (log entry 11). DESIGN CHOICE, log entry 24: one that
completes returns OK, where R63, R65 and R66 give a primitive no return. -/
def alone (body : List Action) (s : State) : State :=
  finish lifeKept (runActions body s.engine s.oracle) s

end Sys2Proof.Machine
end

