-- ==== Sys2Proof/Machine/Transmission.lean ====
section
/-! DEFINITION. The nibble transmitter (41_transmission.md). -/

namespace Sys2Proof.Machine

/-- TxNibble(n): present a nibble on D4..D7 and latch it with one enable pulse (R63). -/
def txNibble (n : Nibble) : List Action :=
  [.write .d4 (nibbleBit n 0), .write .d5 (nibbleBit n 1), .write .d6 (nibbleBit n 2), .write .d7 (nibbleBit n 3),
    .write .en false, .delay Config.tEnHold,
    .write .en true, .delay Config.tEnHold,
    .write .en false, .delay Config.tNibbleSettle]

/-- A byte with RS at `rs` and RW low, high nibble first (R65, R66). -/
def txByte (rs : Bit) (b : Byte) : List Action :=
  [.write .rs rs, .write .rw false] ++ txNibble (highNibble b) ++ txNibble (lowNibble b)

/-- TxCommand(c) (R65). -/
def txCommand (c : Byte) : List Action := txByte false c

/-- TxChar(b): the byte, then the cursor's advance (R66). -/
def txChar (b : Byte) : List Action := txByte true b ++ [.moveCursor .advance]

/-- TX_NIBBLE: the RS bit of the latch word is the level the caller has set already; TxNibble does not write RS or RW (R63).
Log entry 9. -/
def execTxNibble (_rs : Bit) (n : Nibble) (s : State) : Host.Outcome State Fault Refusal := .next (alone (txNibble n) s)

/-- TX_COMMAND (R65). -/
def execTxCommand (c : Byte) (s : State) : Host.Outcome State Fault Refusal := .next (alone (txCommand c) s)

/-- TX_CHAR (R66). -/
def execTxChar (b : Byte) (s : State) : Host.Outcome State Fault Refusal := .next (alone (txChar b) s)

end Sys2Proof.Machine
end

