-- ==== Sys2Proof/Machine/Commands.lean ====
section
/-! DEFINITION. The eleven command bytes (30_encoding.md R54): each is sent by TxCommand (41_transmission.md R65). The cursor and
the waits belong to the operations that send them. Log entry 10. -/

namespace Sys2Proof.Machine

/-- FUNCTION_SET -/
def execHdFunctionSet (s : State) : Host.Outcome State Fault Refusal :=
  .next (alone (txCommand Config.commandBytes.functionSet) s)

/-- DISPLAY_ON_CURSOR_ON -/
def execHdDisplayOnCursorOn (s : State) : Host.Outcome State Fault Refusal :=
  .next (alone (txCommand Config.commandBytes.displayOnCursorOn) s)

/-- CLEAR -/
def execHdClear (s : State) : Host.Outcome State Fault Refusal :=
  .next (alone (txCommand Config.commandBytes.clear) s)

/-- ENTRY_MODE_INC -/
def execHdEntryModeInc (s : State) : Host.Outcome State Fault Refusal :=
  .next (alone (txCommand Config.commandBytes.entryModeInc) s)

/-- HOME -/
def execHdHome (s : State) : Host.Outcome State Fault Refusal :=
  .next (alone (txCommand Config.commandBytes.home) s)

/-- DISPLAY_SHIFT_LEFT -/
def execHdDisplayShiftLeft (s : State) : Host.Outcome State Fault Refusal :=
  .next (alone (txCommand Config.commandBytes.displayShiftLeft) s)

/-- DISPLAY_SHIFT_RIGHT -/
def execHdDisplayShiftRight (s : State) : Host.Outcome State Fault Refusal :=
  .next (alone (txCommand Config.commandBytes.displayShiftRight) s)

/-- CURSOR_SHIFT_LEFT -/
def execHdCursorShiftLeft (s : State) : Host.Outcome State Fault Refusal :=
  .next (alone (txCommand Config.commandBytes.cursorShiftLeft) s)

/-- CURSOR_SHIFT_RIGHT -/
def execHdCursorShiftRight (s : State) : Host.Outcome State Fault Refusal :=
  .next (alone (txCommand Config.commandBytes.cursorShiftRight) s)

/-- ALL_ON -/
def execHdAllOn (s : State) : Host.Outcome State Fault Refusal :=
  .next (alone (txCommand Config.commandBytes.allOn) s)

/-- ALL_OFF -/
def execHdAllOff (s : State) : Host.Outcome State Fault Refusal :=
  .next (alone (txCommand Config.commandBytes.allOff) s)

end Sys2Proof.Machine
end

