-- ==== Sys2Proof/Machine/Operations.lean ====
section
/-! DEFINITION. Text, display commands and the cursor-position tracker (43_operations.md). The bodies are over the parameters of
00_scope.md R8; the meanings take this machine's. -/

namespace Sys2Proof.Machine

/-- writeText: each of the first 80 bytes as a character (R72). -/
def textBody (payload : List Byte) : List Action := (textBytes payload).flatMap txChar

/-- ClearBody(): the command, the cursor's reset, the 2 ms wait (R73). -/
def clearBody (c : CommandBytes) : List Action :=
  txCommand c.clear ++ [.moveCursor .toZero, .delay Config.tClear]

/-- returnHome (R74). -/
def homeBody (c : CommandBytes) : List Action :=
  txCommand c.home ++ [.moveCursor .toZero, .delay Config.tHome]

/-- shiftLeft: the viewport shift, which leaves the cursor alone (R75, R77). -/
def shiftLeftBody (c : CommandBytes) : List Action := txCommand c.displayShiftLeft ++ [.delay Config.tShift]

/-- shiftRight (R76, R77). -/
def shiftRightBody (c : CommandBytes) : List Action := txCommand c.displayShiftRight ++ [.delay Config.tShift]

/-- turnOn (R80). -/
def onBody (c : CommandBytes) : List Action := txCommand c.allOn ++ [.delay Config.tOnOff]

/-- turnOff (R81). -/
def offBody (c : CommandBytes) : List Action := txCommand c.allOff ++ [.delay Config.tOnOff]

/-- The loop of setCursor from the cursor `from_`: one cursor-shift command and one step of the counter an iteration, towards the
target (R78, R79). `fuel` bounds the iterations; 80 are always enough. -/
def cursorLoop (c : CommandBytes) (target : Fin 80) : Nat → Fin 80 → List Action
  | 0, _ => []
  | fuel + 1, here =>
    if here = target then []
    else if here < target then
      txCommand c.cursorShiftRight ++ [.moveCursor .stepRight] ++ cursorLoop c target fuel (cursorAfter .stepRight here)
    else
      txCommand c.cursorShiftLeft ++ [.moveCursor .stepLeft] ++ cursorLoop c target fuel (cursorAfter .stepLeft here)

/-- setCursor from a given cursor (R78). -/
def cursorBody (c : CommandBytes) (target here : Fin 80) : List Action := cursorLoop c target 80 here

/-- text (R72). -/
def execText (payload : List Byte) (s : State) : Host.Outcome State Fault Refusal :=
  .next (admitted (.text payload) lifeKept (textBody payload) s)

/-- clear (R73). -/
def execClear (s : State) : Host.Outcome State Fault Refusal :=
  .next (admitted .clear lifeKept (clearBody Config.commandBytes) s)

/-- home (R74). -/
def execHome (s : State) : Host.Outcome State Fault Refusal :=
  .next (admitted .home lifeKept (homeBody Config.commandBytes) s)

/-- shift_left (R75). -/
def execShiftLeft (s : State) : Host.Outcome State Fault Refusal :=
  .next (admitted .shiftLeft lifeKept (shiftLeftBody Config.commandBytes) s)

/-- shift_right (R76). -/
def execShiftRight (s : State) : Host.Outcome State Fault Refusal :=
  .next (admitted .shiftRight lifeKept (shiftRightBody Config.commandBytes) s)

/-- on (R80). -/
def execOn (s : State) : Host.Outcome State Fault Refusal :=
  .next (admitted .on lifeKept (onBody Config.commandBytes) s)

/-- off (R81). -/
def execOff (s : State) : Host.Outcome State Fault Refusal :=
  .next (admitted .off lifeKept (offBody Config.commandBytes) s)

/-- cursor (R78): a target of 80 or above is an argument error before any check of the lifecycle (60_exceptions.md R96). -/
def execCursor (target : Byte) (s : State) : Host.Outcome State Fault Refusal :=
  match cellOfTarget target with
  | none => .next (argumentError s)
  | some t => .next (admitted (.cursor target) lifeKept (cursorBody Config.commandBytes t s.engine.cursor) s)

end Sys2Proof.Machine
end

