-- ==== Sys2Proof/Machine/Lifecycle.lean ====
section
/-! DEFINITION. INIT and DEINIT (42_lifecycle.md). -/

namespace Sys2Proof.Machine

/-- The seven roles in role order (R67). -/
def allRoles : List Role := [.rs, .rw, .en, .d4, .d5, .d6, .d7]

/-- INIT phase 1: acquisition, which appends no event (R67). -/
def acquireAll : List Action := allRoles.map .acquire

/-- INIT phase 2: every line an output at low (R67). -/
def configureAll : List Action := allRoles.map fun r => .configure r .output

/-- INIT phase 3: the power-on sequence (R67, R68, R69). -/
def powerOnSequence (c : CommandBytes) : List Action :=
  [.delay Config.tPowerOn, .write .rs false, .write .rw false]
    ++ txNibble Config.initNibbleA ++ [.delay Config.tInitGap1]
    ++ txNibble Config.initNibbleA ++ [.delay Config.tInitGap2]
    ++ txNibble Config.initNibbleA
    ++ txNibble Config.initNibbleB
    ++ txCommand c.functionSet
    ++ txCommand c.displayOnCursorOn
    ++ clearBody c
    ++ txCommand c.entryModeInc
    ++ [.delay Config.tStable]

/-- initialize() (R67). -/
def initBody (c : CommandBytes) : List Action := acquireAll ++ configureAll ++ powerOnSequence c

/-- init (R67): READY on OK, FAILED on any error. -/
def execInit (s : State) : Host.Outcome State Fault Refusal :=
  .next (admitted .init lifeAfterInit (initBody Config.commandBytes) s)

/-- deinit (R71): a clear, then TORN_DOWN whatever it returns. -/
def execDeinit (s : State) : Host.Outcome State Fault Refusal :=
  .next (admitted .deinit lifeAfterDeinit (clearBody Config.commandBytes) s)

end Sys2Proof.Machine
end

