-- ==== Sys2Proof/Machine/Lines.lean ====
section
/-! DEFINITION. The line primitives CONFIGURE and WRITE (40_gpio_lines.md). -/

namespace Sys2Proof.Machine

/-- CONFIGURE(r, d) (R58). -/
def execConfigure (r : Role) (val : BitVec 2) (s : State) : Host.Outcome State Fault Refusal :=
  match directionOfVal val with
  | none => .next (argumentError s)
  | some d => .next (alone [.configure r d] s)

/-- WRITE(r, v) (R59, R60). -/
def execWrite (r : Role) (val : BitVec 2) (s : State) : Host.Outcome State Fault Refusal :=
  match levelOfVal val with
  | none => .next (argumentError s)
  | some v => .next (alone [.write r v] s)

end Sys2Proof.Machine
end

