-- ==== Sys2Proof/Machine/Dispatch.lean ====
section
/-! DEFINITION. One arm per instruction. -/

namespace Sys2Proof.Machine

def exec (i : Instr) (s : State) : Host.Outcome State Fault Refusal :=
  match i with
  | .init => Sys2Proof.Machine.execInit s
  | .deinit => Sys2Proof.Machine.execDeinit s
  | .text p => Sys2Proof.Machine.execText p s
  | .clear => Sys2Proof.Machine.execClear s
  | .home => Sys2Proof.Machine.execHome s
  | .shiftLeft => Sys2Proof.Machine.execShiftLeft s
  | .shiftRight => Sys2Proof.Machine.execShiftRight s
  | .on => Sys2Proof.Machine.execOn s
  | .off => Sys2Proof.Machine.execOff s
  | .cursor t => Sys2Proof.Machine.execCursor t s
  | .configure r v => Sys2Proof.Machine.execConfigure r v s
  | .write r v => Sys2Proof.Machine.execWrite r v s
  | .txNibble rs n => Sys2Proof.Machine.execTxNibble rs n s
  | .txCommand c => Sys2Proof.Machine.execTxCommand c s
  | .txChar b => Sys2Proof.Machine.execTxChar b s
  | .hdFunctionSet => Sys2Proof.Machine.execHdFunctionSet s
  | .hdDisplayOnCursorOn => Sys2Proof.Machine.execHdDisplayOnCursorOn s
  | .hdClear => Sys2Proof.Machine.execHdClear s
  | .hdEntryModeInc => Sys2Proof.Machine.execHdEntryModeInc s
  | .hdHome => Sys2Proof.Machine.execHdHome s
  | .hdDisplayShiftLeft => Sys2Proof.Machine.execHdDisplayShiftLeft s
  | .hdDisplayShiftRight => Sys2Proof.Machine.execHdDisplayShiftRight s
  | .hdCursorShiftLeft => Sys2Proof.Machine.execHdCursorShiftLeft s
  | .hdCursorShiftRight => Sys2Proof.Machine.execHdCursorShiftRight s
  | .hdAllOn => Sys2Proof.Machine.execHdAllOn s
  | .hdAllOff => Sys2Proof.Machine.execHdAllOff s

end Sys2Proof.Machine
end

