-- ==== Sys2Proof/Machine/Keywords.lean ====
section
/-! DEFINITION. The control surfaces and their keywords (44_dispatch.md R89, R90). -/

namespace Sys2Proof.Machine

/-- The ASCII bytes of `clear`. -/
def kwClear : List Byte := [0x63#8, 0x6C#8, 0x65#8, 0x61#8, 0x72#8]
/-- The ASCII bytes of `home`. -/
def kwHome : List Byte := [0x68#8, 0x6F#8, 0x6D#8, 0x65#8]
/-- The ASCII bytes of `shift_left`. -/
def kwShiftLeft : List Byte := [0x73#8, 0x68#8, 0x69#8, 0x66#8, 0x74#8, 0x5F#8, 0x6C#8, 0x65#8, 0x66#8, 0x74#8]
/-- The ASCII bytes of `shift_right`. -/
def kwShiftRight : List Byte := [0x73#8, 0x68#8, 0x69#8, 0x66#8, 0x74#8, 0x5F#8, 0x72#8, 0x69#8, 0x67#8, 0x68#8, 0x74#8]
/-- The ASCII bytes of `on`. -/
def kwOn : List Byte := [0x6F#8, 0x6E#8]
/-- The ASCII bytes of `off`. -/
def kwOff : List Byte := [0x6F#8, 0x66#8, 0x66#8]

/-- The six keywords and their requests, in the order of R90. -/
def keywordTable : List (List Byte × Request) :=
  [(kwClear, .clear), (kwHome, .home), (kwShiftLeft, .shiftLeft), (kwShiftRight, .shiftRight), (kwOn, .on), (kwOff, .off)]

/-- The readable surface of the keywords (R90). -/
def keywordList : List (List Byte) := keywordTable.map Prod.fst

/-- The request of a keyword: only an exact match counts (R89, 92_eei_decisions.md D28). -/
def requestOfKeyword (k : List Byte) : Option Request := (keywordTable.find? fun row => row.1 == k).map Prod.snd

/-- The request a control surface maps to (R89); none is an argument error. -/
def requestOfSurface (s : Surface) : Option Request :=
  match s with
  | .cmd k => requestOfKeyword k
  | .text p => some (.text p)
  | .cursor n => some (.cursor n)
  | .probe => some .init
  | .removal => some .deinit

end Sys2Proof.Machine
end

