-- ==== Sys2Proof/Machine/Guard.lean ====
section
/-! DEFINITION. The steps of the agents: submission, admission under the guard, cancellation, the control surfaces, construction
(44_dispatch.md, 70_reset_and_hazards.md R107, R108). -/

namespace Sys2Proof.Machine

/-- One member of a list and the others, picked by `k` modulo the length; none only from the empty list. -/
def pickFrom {α : Type} (k : Nat) (l : List α) : Option (α × List α) :=
  match l[k % l.length]? with
  | some x => some (x, l.eraseIdx (k % l.length))
  | none => none

/-- Every engine with its collaborator, the one the inputs concern first. -/
def displays (s : State) : List Display := ⟨s.engine, s.oracle⟩ :: s.others

/-- Give something back to a caller. -/
def reply (caller : Caller) (a : Answer) (s : State) : State := { s with replies := s.replies ++ [⟨caller, a⟩] }

/-- Give the caller the status the last instruction returned (44_dispatch.md R84); an ending without a status gives nothing
back. Log entry 7. -/
def replyReturned (caller : Caller) (s : State) : State :=
  match s.returned with
  | some st => reply caller (.status st) s
  | none => s

/-- Answer the caller after an instruction. -/
def answer (caller : Caller) (o : Host.Outcome State Fault Refusal) : Host.Outcome State Fault Refusal :=
  match o with
  | .next s => .next (replyReturned caller s)
  | .fault f => .fault f
  | .refused r => .refused r

/-- Replace the pending requests. -/
def setPending (ps : List Pending) (s : State) : State := { s with engine := { s.engine with pending := ps } }

/-- The part of `submit` after decoding: the argument check, then the request waits for the guard (R83). -/
def enqueue (caller : Caller) (r : Request) (s : State) : State :=
  if argumentOk r then setPending (s.engine.pending ++ [⟨caller, r⟩]) s else reply caller (.status .eArg) s

/-- `submit(caller, W, P)` (R83): an invalid word is an argument error at once. -/
def submit (caller : Caller) (w : BitVec 16) (payload : List Byte) (s : State) : State :=
  match decodeReq16 w payload with
  | .ok r => enqueue caller r s
  | .error _ => reply caller (.status .eArg) s

/-- A control surface is used (R89): its request is submitted as a word, and an unknown keyword is an argument error at once. -/
def useSurface (caller : Caller) (sf : Surface) (s : State) : State :=
  match requestOfSurface sf with
  | some r => submit caller r.word r.payload s
  | none => reply caller (.status .eArg) s

/-- Admission (R84): the engine takes a pending request, runs it to its end as one step and answers its caller. -/
def admitOne (k : Nat) (s : State) : Host.Outcome State Fault Refusal :=
  match pickFrom k s.engine.pending with
  | some (p, rest) => answer p.caller (exec p.request.toInstr (setPending rest s))
  | none => .next s

/-- `cancel` (R88): a pending request is abandoned with E_INTR, no event and no other change. -/
def cancel (k : Nat) (s : State) : State :=
  match pickFrom k s.engine.pending with
  | some (p, rest) => reply p.caller (.status .eIntr) (setPending rest s)
  | none => s

/-- `construct` (70_reset_and_hazards.md R107, R108): a new engine, with the explicit label or the default one of the ordinal,
and the registry's counter incremented (10_state.md R25, R26). Log entry 17. -/
def construct (explicitLabel : Option (List Byte)) (s : State) : State :=
  { s with
    engine := Engine.fresh (explicitLabel.getD (defaultLabel s.nextOrdinal))
    oracle := Oracle.fresh s.nextOrdinal
    others := displays s
    nextOrdinal := s.nextOrdinal + 1 }

/-- The `k`-th engine is the one the inputs concern; the others keep their order. Log entry 17. -/
def turnTo (k : Nat) (s : State) : State :=
  match pickFrom k (displays s) with
  | some (d, rest) => { s with engine := d.engine, oracle := d.oracle, others := rest }
  | none => s

/-- One step of an agent. -/
def runInput (i : Input) (s : State) : Host.Outcome State Fault Refusal :=
  match i with
  | .construct l => .next (construct l s)
  | .turnTo k => .next (turnTo k s)
  | .submit c w p => .next (submit c w p s)
  | .surface c sf => .next (useSurface c sf s)
  | .admitOne k => admitOne k s
  | .cancel k => .next (cancel k s)
  | .readKeywords c => .next (reply c (.keywords keywordList) s)
  | .readLabel c => .next (reply c (.label s.engine.label) s)

/-- The positions of the engines with a pending request. -/
def busyPositions (ds : List Display) : List Nat :=
  (List.range ds.length).filter fun j => (ds[j]?.map fun d => !d.engine.pending.isEmpty).getD false

/-- The engine chooses among its pending requests with a free value of its own stream (R84). Log entry 4. -/
def admitSome (s : State) : Host.Outcome State Fault Refusal :=
  admitOne (Config.freeChoice s.oracle.stream s.oracle.draws) { s with oracle := { s.oracle with draws := s.oracle.draws + 1 } }

/-- With no input left the engines go on by themselves: one of those with a pending request, any of them (60_exceptions.md R104),
admits one of its own (R84); nothing happens when none is pending (R82). Log entries 4, 16. -/
def enginesTurn (s : State) : Host.Outcome State Fault Refusal :=
  match pickFrom (Config.freeTurn s.turns) (busyPositions (displays s)) with
  | some (j, _) => admitSome (turnTo j { s with turns := s.turns + 1 })
  | none => .next s

/-- One step of an agent of the block: the next input, or the engines' own turn. -/
def runAgents (s : State) : Host.Outcome State Fault Refusal :=
  match s.inputs with
  | i :: rest => runInput i { s with inputs := rest }
  | [] => enginesTurn s

/-- A word driven alone from outside the machine: its instruction runs at once, for no caller, and a word that decodes to none is
an argument error. Log entries 11, 13. -/
def runBench (p : Packet) (s : State) : Host.Outcome State Fault Refusal :=
  match decode p with
  | .ok i => exec i s
  | .error _ => .next (argumentError s)

/-- The state in which the next step runs the word. Log entries 12, 14. -/
def onBench (nbits w : Nat) (s : State) : State := { s with bench := some (tablePacket nbits w) }

end Sys2Proof.Machine
end

