-- ==== Sys2Proof/Machine/Step.lean ====
section
/-! DEFINITION. One step of the machine: a word driven alone, or a step of an agent. -/

namespace Sys2Proof.Machine

/-- One step. -/
def step (s : State) : Host.Outcome State Fault Refusal :=
  match s.bench with
  | some p => runBench p { s with bench := none }
  | none => runAgents s

/-- The state whose next step runs the instruction of a table word. The block does not fetch (10_state.md R14): the word is driven
alone from outside. Log entries 12, 14. -/
def State.withFetchWord (s : State) (nbits w : Nat) : State := onBench nbits w s

end Sys2Proof.Machine
end

