-- ==== Sys2Proof/Machine/Assembly.lean ====
section
/-! DEFINITION. The assembly text of a request, one request a line, as ASCII bytes (30_encoding.md R55). It is how the spec writes
requests; the block never sees it. Log entry 22. -/

namespace Sys2Proof.Machine

/-- The ASCII bytes of `init`. -/
def kwInit : List Byte := [0x69#8, 0x6E#8, 0x69#8, 0x74#8]
/-- The ASCII bytes of `deinit`. -/
def kwDeinit : List Byte := [0x64#8, 0x65#8, 0x69#8, 0x6E#8, 0x69#8, 0x74#8]
/-- The ASCII bytes of `text`. -/
def kwText : List Byte := [0x74#8, 0x65#8, 0x78#8, 0x74#8]
/-- The ASCII bytes of `cursor`. -/
def kwCursor : List Byte := [0x63#8, 0x75#8, 0x72#8, 0x73#8, 0x6F#8, 0x72#8]

/-- A blank between the parts of a line: space or tab. -/
def isBlank (b : Byte) : Bool := b == 0x20#8 || b == 0x09#8

/-- The value of a hexadecimal digit. -/
def hexDigit (b : Byte) : Option Nat :=
  if 0x30#8 ≤ b ∧ b ≤ 0x39#8 then some (b.toNat - 0x30)
  else if 0x41#8 ≤ b ∧ b ≤ 0x46#8 then some (b.toNat - 0x41 + 10)
  else if 0x61#8 ≤ b ∧ b ≤ 0x66#8 then some (b.toNat - 0x61 + 10)
  else none

/-- The value of a string of decimal digits, after the value of those before it. -/
def decimalValue : Nat → List Byte → Option Nat
  | acc, [] => some acc
  | acc, b :: rest => if 0x30#8 ≤ b ∧ b ≤ 0x39#8 then decimalValue (acc * 10 + (b.toNat - 0x30)) rest else none

/-- A byte in front of what the rest of a quoted string gives. -/
def consByte (b : Byte) (rest : Option (List Byte × List Byte)) : Option (List Byte × List Byte) :=
  rest.map fun r => (b :: r.1, r.2)

/-- The bytes of a quoted string up to its closing quote, and what follows it: `\\` is a backslash, `\"` a quote, `\xHH` the byte
0xHH, and every other ASCII character its byte (R55). -/
def quotedBytes : List Byte → Option (List Byte × List Byte)
  | [] => none
  | b :: rest =>
    if b = 0x22#8 then some ([], rest)
    else if b = 0x5C#8 then
      match rest with
      | [] => none
      | e :: rest =>
        if e = 0x5C#8 ∨ e = 0x22#8 then consByte e (quotedBytes rest)
        else if e = 0x78#8 then
          match rest with
          | h :: l :: rest =>
            match hexDigit h, hexDigit l with
            | some x, some y => consByte (BitVec.ofNat 8 (16 * x + y)) (quotedBytes rest)
            | _, _ => none
          | _ => none
        else none
    else if b < 0x80#8 then consByte b (quotedBytes rest)
    else none

/-- Nothing but blanks and a comment, which `;` begins, is left of the line (R55). -/
def lineEnded (l : List Byte) : Bool :=
  match l.dropWhile isBlank with
  | [] => true
  | b :: _ => b == 0x3B#8

/-- The request of a mnemonic and the rest of its line. -/
def assembleRequest (name rest : List Byte) : Option Request :=
  if name = kwText then
    match rest.dropWhile isBlank with
    | b :: quoted =>
      if b = 0x22#8 then
        match quotedBytes quoted with
        | some (p, tail) => if lineEnded tail then some (.text p) else none
        | none => none
      else none
    | [] => none
  else if name = kwCursor then
    let arg := rest.dropWhile isBlank
    let digits := arg.takeWhile fun b => !isBlank b && b != 0x3B#8
    if digits = [] ∨ !lineEnded (arg.drop digits.length) then none
    else
      match decimalValue 0 digits with
      | some n => if n < 256 then some (.cursor (BitVec.ofNat 8 n)) else none
      | none => none
  else if !lineEnded rest then none
  else if name = kwInit then some .init
  else if name = kwDeinit then some .deinit
  else requestOfKeyword name

/-- One line (R55): none for a line that is no assembly text, `some none` for a line without a request. DESIGN CHOICE, log entry 22:
the mnemonic ends at a blank, a `;` or a quote, so no blank is needed between `text` and its opening quote. -/
def assembleLine (l : List Byte) : Option (Option Packet) :=
  let l := l.dropWhile isBlank
  if lineEnded l then some none
  else
    let name := l.takeWhile fun b => !isBlank b && b != 0x3B#8 && b != 0x22#8
    (assembleRequest name (l.drop name.length)).map fun r => some r.packet

end Sys2Proof.Machine
end

