-- ==== Sys2Proof/Machine/Observe.lean ====
section
/-! DEFINITION. What a trace says: the levels it leaves, the values it latches, the bytes they pair into and the least time it
takes (20_memory.md R33, R34; 30_encoding.md R52, R53; 70_reset_and_hazards.md R116). -/

namespace Sys2Proof.Machine

/-- The lines after one event, a failed call changing nothing (40_gpio_lines.md R58, R59). -/
def replayEvent (ls : LineSet) (ev : Event) : LineSet :=
  match ev with
  | .cfg r d true => setLine r (lineConfigured d (lineOf ls r)) ls
  | .wr r v true => setLine r (lineDriven v (lineOf ls r)) ls
  | .cfg _ _ false => ls
  | .wr _ _ false => ls
  | .dly _ => ls

/-- The lines after a trace, from given lines. -/
def replay (ls : LineSet) (t : List Event) : LineSet := t.foldl replayEvent ls

/-- A latched value, the 6-tuple of R33. A level is none on a line that was never an output, which the engine never latches. -/
structure Latch where
  rs : Option Bit
  rw : Option Bit
  d7 : Option Bit
  d6 : Option Bit
  d5 : Option Bit
  d4 : Option Bit
deriving DecidableEq, Repr

/-- The value the lines present. -/
def presented (ls : LineSet) : Latch := ⟨ls.rs.lvl, ls.rw.lvl, ls.d7.lvl, ls.d6.lvl, ls.d5.lvl, ls.d4.lvl⟩

/-- A latch happens at `Wr(EN, 0, true)` while EN is 1 (R33). DESIGN CHOICE, log entry 23: where a failed closing write left EN at
1, the opening write of the next nibble is a latch too, as R33 says, though 41_transmission.md R63 counts one latch a nibble. -/
def latchAt (ls : LineSet) (ev : Event) : List Latch :=
  if ev = .wr .en false true ∧ ls.en.lvl = some true then [presented ls] else []

/-- The latches of a trace that starts from given lines. -/
def latchesFrom : LineSet → List Event → List Latch
  | _, [] => []
  | ls, ev :: t => latchAt ls ev ++ latchesFrom (replayEvent ls ev) t

/-- `latches(trace)`: replaying the levels from the start of the trace (R33). -/
def latches (t : List Event) : List Latch := latchesFrom LineSet.fresh t

/-- A latch as the word `{RS, RW, D7, D6, D5, D4}` (30_encoding.md R52); none where a level is none. -/
def latchWord (l : Latch) : Option (BitVec 6) :=
  match l.rs, l.rw, l.d7, l.d6, l.d5, l.d4 with
  | some a, some b, some c, some d, some e, some f =>
    some (BitVec.ofBool a ++ BitVec.ofBool b ++ BitVec.ofBool c ++ BitVec.ofBool d ++ BitVec.ofBool e ++ BitVec.ofBool f)
  | _, _, _, _, _, _ => none

/-- `latchedNibble`: the four data bits `{D7, D6, D5, D4}` of a latch word (R33). -/
def latchedNibble (l : BitVec 6) : Nibble := field l 0 4

/-- The word `{RS, RW, byte}` of two latches with equal RS and RW, high nibble first (R34, 30_encoding.md R53). -/
def pairWord (hi lo : BitVec 6) : Option (BitVec 10) :=
  if field hi 4 2 = field lo 4 2 then some (field hi 4 2 ++ latchedNibble hi ++ latchedNibble lo) else none

/-- The paired bytes of latch words, two by two; none where a pair does not agree or a nibble is left over. -/
def pairWords : List (BitVec 6) → Option (List (BitVec 10))
  | [] => some []
  | [_] => none
  | hi :: lo :: rest =>
    match pairWord hi lo, pairWords rest with
    | some w, some ws => some (w :: ws)
    | _, _ => none

/-- The bytes the controller receives after the four single nibbles of INIT (R34). Defined for a trace without a failed call. -/
def busWords (t : List Event) : Option (List (BitVec 10)) :=
  match (latches t).mapM latchWord with
  | some ws => pairWords (ws.drop 4)
  | none => none

/-- A call the collaborator failed (10_state.md R27). -/
def callFailed (ev : Event) : Bool :=
  match ev with
  | .cfg _ _ ok => !ok
  | .wr _ _ ok => !ok
  | .dly _ => false

/-- The least time of a trace in µs: the sum of its delays (70_reset_and_hazards.md R111, R116). -/
def minTime : List Event → Nat
  | [] => 0
  | .dly t :: evs => t + minTime evs
  | .cfg _ _ _ :: evs => minTime evs
  | .wr _ _ _ :: evs => minTime evs

end Sys2Proof.Machine
end

