-- ==== Sys2Proof/Safety.lean ====
section
/-! DEFINITION. The terms the claims use: the event lists the rules give, the answers of reliable lines, the invariants of an
engine and the good end of a run (44_dispatch.md R92). -/

namespace Sys2Proof.Machine

/-! ## The collaborator's answers -/

/-- The next `n` answers are all ok (the named premise of 40_gpio_lines.md R57). -/
def reliable : Nat → Oracle → Bool
  | 0, _ => true
  | n + 1, o => nextAnswer o && reliable n (restAnswers o)

/-- The answers after the next `n`. -/
def skipAnswers : Nat → Oracle → Oracle
  | 0, o => o
  | n + 1, o => skipAnswers n (restAnswers o)

/-- The next `k` answers are ok and the one after them is a failure. -/
def failsAt (k : Nat) (o : Oracle) : Bool := reliable k o && !nextAnswer (skipAnswers k o)

/-! ## Events, levels and latches of the transmissions, written out from 41_transmission.md -/

/-- The eleven command instructions with their bytes (30_encoding.md R54). -/
def hdCommands (c : CommandBytes) : List (Instr × Byte) :=
  [(.hdFunctionSet, c.functionSet), (.hdDisplayOnCursorOn, c.displayOnCursorOn), (.hdClear, c.clear),
    (.hdEntryModeInc, c.entryModeInc), (.hdHome, c.home), (.hdDisplayShiftLeft, c.displayShiftLeft),
    (.hdDisplayShiftRight, c.displayShiftRight), (.hdCursorShiftLeft, c.cursorShiftLeft),
    (.hdCursorShiftRight, c.cursorShiftRight), (.hdAllOn, c.allOn), (.hdAllOff, c.allOff)]

/-- The ten events of TxNibble (R63). -/
def nibbleEvents (n : Nibble) : List Event :=
  [.wr .d4 (n.getLsbD 0) true, .wr .d5 (n.getLsbD 1) true, .wr .d6 (n.getLsbD 2) true, .wr .d7 (n.getLsbD 3) true,
    .wr .en false true, .dly 1, .wr .en true true, .dly 1, .wr .en false true, .dly 100]

/-- The 22 events of a byte with RS at `rs` (R65, R66). -/
def byteEvents (rs : Bit) (b : Byte) : List Event :=
  [.wr .rs rs true, .wr .rw false true] ++ nibbleEvents (b.extractLsb' 4 4) ++ nibbleEvents (b.extractLsb' 0 4)

/-- The lines after a nibble (R63). -/
def afterNibble (n : Nibble) (ls : LineSet) : LineSet :=
  { ls with
    en := lineDriven false ls.en
    d4 := lineDriven (n.getLsbD 0) ls.d4
    d5 := lineDriven (n.getLsbD 1) ls.d5
    d6 := lineDriven (n.getLsbD 2) ls.d6
    d7 := lineDriven (n.getLsbD 3) ls.d7 }

/-- The lines after a byte: its low nibble stays presented (R65, R66). -/
def afterByte (rs : Bit) (b : Byte) (ls : LineSet) : LineSet :=
  { afterNibble (b.extractLsb' 0 4) ls with rs := lineDriven rs ls.rs, rw := lineDriven false ls.rw }

/-- The latched value of a nibble under given levels of RS and RW (20_memory.md R33). -/
def nibbleLatch (rs rw : Option Bit) (n : Nibble) : Latch :=
  ⟨rs, rw, some (n.getLsbD 3), some (n.getLsbD 2), some (n.getLsbD 1), some (n.getLsbD 0)⟩

/-- The two latched values of a byte, high nibble first, RW low (R65, R66). -/
def byteLatches (rs : Bit) (b : Byte) : List Latch :=
  [nibbleLatch (some rs) (some false) (b.extractLsb' 4 4), nibbleLatch (some rs) (some false) (b.extractLsb' 0 4)]

/-- The four single nibbles of INIT (20_memory.md R34). -/
def initLatches : List Latch := [0x3#4, 0x3#4, 0x3#4, 0x2#4].map (nibbleLatch (some false) (some false))

/-- The 142 events of a successful INIT (42_lifecycle.md R67). -/
def initEvents (c : CommandBytes) : List Event :=
  [.cfg .rs .output true, .cfg .rw .output true, .cfg .en .output true, .cfg .d4 .output true, .cfg .d5 .output true,
    .cfg .d6 .output true, .cfg .d7 .output true, .dly 40000, .wr .rs false true, .wr .rw false true]
    ++ nibbleEvents 0x3#4 ++ [.dly 5000] ++ nibbleEvents 0x3#4 ++ [.dly 100] ++ nibbleEvents 0x3#4 ++ nibbleEvents 0x2#4
    ++ byteEvents false c.functionSet ++ byteEvents false c.displayOnCursorOn ++ byteEvents false c.clear ++ [.dly 2000]
    ++ byteEvents false c.entryModeInc ++ [.dly 1000000]

/-- A line acquired, an output and at a level. -/
def outputAt (v : Bit) : Line := ⟨true, .output, some v⟩

/-- The lines after a successful INIT: D7..D4 hold the low nibble of the entry-mode command (R67). -/
def linesAfterInit (c : CommandBytes) : LineSet where
  rs := outputAt false
  rw := outputAt false
  en := outputAt false
  d4 := outputAt (c.entryModeInc.getLsbD 0)
  d5 := outputAt (c.entryModeInc.getLsbD 1)
  d6 := outputAt (c.entryModeInc.getLsbD 2)
  d7 := outputAt (c.entryModeInc.getLsbD 3)

/-- Events whose `k`-th call (counted from 0) fails: the failed call is the last event (00_scope.md R11). -/
def cutAt : Nat → List Event → List Event
  | _, [] => []
  | k, .dly t :: evs => .dly t :: cutAt k evs
  | 0, .wr r v _ :: _ => [.wr r v false]
  | 0, .cfg r d _ :: _ => [.cfg r d false]
  | k + 1, .wr r v ok :: evs => .wr r v ok :: cutAt k evs
  | k + 1, .cfg r d ok :: evs => .cfg r d ok :: cutAt k evs

/-- The events before the first write to a line that is not an output (40_gpio_lines.md R60). -/
def beforeNonOutput (ls : LineSet) (evs : List Event) : List Event :=
  evs.takeWhile fun ev =>
    match ev with
    | .wr r _ _ => decide ((lineOf ls r).dir = .output)
    | .cfg _ _ _ => true
    | .dly _ => true

/-- How many events are calls of the collaborator. -/
def callCount : List Event → Nat
  | [] => 0
  | .dly _ :: evs => callCount evs
  | .wr _ _ _ :: evs => callCount evs + 1
  | .cfg _ _ _ :: evs => callCount evs + 1

/-- The state after an operation that succeeded: its events, the lines, the cursor and the lifecycle it leaves, `n` answers used
and OK returned. Everything else is as before. -/
def succeeded (evs : List Event) (ls : LineSet) (c : Fin 80) (l : Life) (n : Nat) (s : State) : State :=
  { s with
    engine := { s.engine with trace := s.engine.trace ++ evs, lines := ls, cursor := c, life := l }
    oracle := skipAnswers n s.oracle
    returned := some .ok }

/-- The state after an operation whose `k`-th call failed on a write: the events up to the failed call, the levels those drove
(10_state.md R18), a cursor and a lifecycle, and E_IO returned. Everything else is as before. -/
def failedWrite (evs : List Event) (k : Nat) (c : Fin 80) (l : Life) (s : State) : State :=
  { s with
    engine := { s.engine with
      trace := s.engine.trace ++ cutAt k evs, lines := replay s.engine.lines (cutAt k evs), cursor := c, life := l }
    oracle := skipAnswers (k + 1) s.oracle
    returned := some .eIo }

/-- The state after a transmission that reached a write to `r`, which is not an output: the events before it, the levels those
drove, the sticky fault (40_gpio_lines.md R60) and no status (log entry 7). Everything else is as before. -/
def stoppedAtNonOutput (evs : List Event) (r : Role) (s : State) : State :=
  { s with
    engine := { s.engine with
      trace := s.engine.trace ++ evs, lines := replay s.engine.lines evs, fault := some (.writeNotOutput r) }
    oracle := skipAnswers (callCount evs) s.oracle
    returned := none }

/-! ## Lines -/

/-- Every line is an output. -/
def Outputs (ls : LineSet) : Prop := ∀ r, (lineOf ls r).dir = .output

/-- Every line is acquired, an output and at a level (10_state.md R19). -/
def Usable (ls : LineSet) : Prop :=
  ∀ r, (lineOf ls r).acq = true ∧ (lineOf ls r).dir = .output ∧ (lineOf ls r).lvl.isSome = true

/-- The directions and levels are those the trace leaves (10_state.md R18, R27). -/
def Tracked (e : Engine) : Prop :=
  ∀ r, (lineOf e.lines r).dir = (lineOf (replay LineSet.fresh e.trace) r).dir
    ∧ (lineOf e.lines r).lvl = (lineOf (replay LineSet.fresh e.trace) r).lvl

/-- A line that is an output holds a level (40_gpio_lines.md R61). -/
def OutputsHoldLevels (e : Engine) : Prop :=
  ∀ r, (lineOf e.lines r).dir = .output → (lineOf e.lines r).lvl.isSome = true

/-! ## Engines driven by requests alone -/

/-- The event does not drive RW high and does not configure an input (20_memory.md R38, 40_gpio_lines.md R58). -/
def eventAllowed (ev : Event) : Bool :=
  match ev with
  | .wr .rw v _ => !v
  | .wr _ _ _ => true
  | .cfg _ .output _ => true
  | .cfg _ .input _ => false
  | .dly _ => true

/-- What holds of every engine that only requests drive. -/
structure EngineInv (e : Engine) : Prop where
  /-- R19; DEINIT releases nothing (42_lifecycle.md R71) -/
  usable : e.life = .ready ∨ e.life = .tornDown → Usable e.lines
  /-- nothing has happened before INIT (70_reset_and_hazards.md R107) -/
  untouched : e.life = .constructed → e.lines = LineSet.fresh ∧ e.trace = []
  /-- only requests that passed the argument check wait (44_dispatch.md R83) -/
  arguments : ∀ p ∈ e.pending, argumentOk p.request = true
  /-- R38, and no line is configured as an input (R58) -/
  events : ∀ ev ∈ e.trace, eventAllowed ev = true
  /-- the engine never writes to a line that is not an output (40_gpio_lines.md R60) -/
  noBadWrite : ∀ r, e.fault ≠ some (.writeNotOutput r)

/-- A property of every engine of a state. -/
def EveryEngine (P : Engine → Prop) (s : State) : Prop := ∀ d ∈ displays s, P d.engine

/-- Nothing drives a word alone, and every engine keeps `EngineInv`. -/
structure RequestsOnly (s : State) : Prop where
  bench : s.bench = none
  engines : EveryEngine EngineInv s

/-- No call of the trace failed. -/
def NoFailedCall (t : List Event) : Prop := ∀ ev ∈ t, callFailed ev = false

/-- The latches pair into bytes (20_memory.md R34): in a trace without a failed call, none before INIT, and after it the four
single nibbles and then whole bytes, each with one RS level and RW low; and the enable line is not left high. -/
def Paired (e : Engine) : Prop :=
  NoFailedCall e.trace →
    e.lines.en.lvl ≠ some true ∧
    match e.life with
    | .constructed | .failed => latches e.trace = []
    | .ready | .tornDown =>
      ∃ bytes : List (Bit × Byte), latches e.trace = initLatches ++ bytes.flatMap fun p => byteLatches p.1 p.2

/-! ## Runs -/

/-- A run of one engine ends well (44_dispatch.md R92). A caller whose request has not been answered has it in `pending`, since a
request is answered in the step that takes it out, but for one that ended without a status, which sets `fault`. -/
def goodEnd (e : Engine) : Bool :=
  e.pending.isEmpty && e.fault.isNone && (e.life == .ready || e.life == .tornDown)

/-- The named launch premise of 70_reset_and_hazards.md R110. No claim about the block's own state needs it. -/
def displayPowered : Prop := Config.displayPoweredInTime = true

/-- The host turns to another engine or makes a new one. -/
def changesEngine (i : Input) : Bool :=
  match i with
  | .construct _ | .turnTo _ => true
  | .submit _ _ _ | .surface _ _ | .admitOne _ | .cancel _ | .readKeywords _ | .readLabel _ => false

end Sys2Proof.Machine
end

