-- ==== Sys2Proof/Certificates/Slice0/Obligations.lean ====
section
/-! DEFINITION. The statements for the provers. `field`, `succeeded`, `failedWrite`, `byteEvents` and the other terms are in
Sys2Proof/Decode.lean and Sys2Proof/Safety.lean. -/

open Sys2Proof Sys2Proof.Machine

/-! ## Encodings -/

/-- Every instruction, with every operand, is read back from its packet, over any pairwise distinct command bytes (30_encoding.md
R45, R46, R51 to R54). Latch words with RS = 1 are among them, which is the model's reading of R52 (log entry 25). -/
def Obligations.DecodeOfEncode : Prop :=
  ∀ (c : CommandBytes), c.Distinct → ∀ i : Instr, decodeWith c (encodeWith c i) = .ok i

/-- A packet that decodes has the format and the word of what it decodes to, and a TEXT has its payload: each word has one meaning
and no bit of it is dropped. The payload of a packet that is no TEXT is not read. That a latch word with RS = 1 decodes is the
model's reading of 30_encoding.md R52 (log entry 25). -/
def Obligations.EncodeOfDecode : Prop :=
  ∀ (c : CommandBytes) (p : Packet) (i : Instr), decodeWith c p = .ok i →
    (encodeWith c i).format = p.format ∧ (encodeWith c i).word = p.word ∧ ∀ text : List Byte, i = .text text → text = p.payload

/-- R47: RSV, OP and ARG decide, and every word is one of the ten operations or INVALID. -/
def Obligations.RequestWordDecoding : Prop :=
  ∀ (w : BitVec 16) (p : List Byte),
    let op := (w.extractLsb' 12 4).toNat
    let arg := w.extractLsb' 0 8
    (w.extractLsb' 8 4 ≠ 0#4 → ∃ e, decodeReq16 w p = .error e) ∧
    (w.extractLsb' 8 4 = 0#4 → op = 10 → decodeReq16 w p = .ok (.cursor arg)) ∧
    (w.extractLsb' 8 4 = 0#4 → 1 ≤ op → op ≤ 9 → arg = 0#8 →
      some (decodeReq16 w p)
        = ([.init, .deinit, .text p, .clear, .home, .shiftLeft, .shiftRight, .on, .off].map Except.ok)[op - 1]?) ∧
    (op ≠ 10 → arg ≠ 0#8 → ∃ e, decodeReq16 w p = .error e) ∧
    (op = 0 ∨ 11 ≤ op → ∃ e, decodeReq16 w p = .error e)

/-- Words written out from the tables of 30_encoding.md and the vectors of 95_test_vectors.md L2-1, L2-3, L2-9: nine decode and two
are refused. The number 0x1C of the last is a presumed one (log entry 1). The latch word 0x24, which L2-3 lists, has RS = 1, which
the pattern of R52 would rule out: that it decodes is the model's reading (log entry 25). -/
def Obligations.WordsWrittenOut : Prop :=
  decode ⟨.req16, 0b0001000000000000, []⟩ = .ok .init ∧
  decode ⟨.req16, 0b0011000000000000, [0x41#8]⟩ = .ok (.text [0x41#8]) ∧
  decode ⟨.req16, 0b1010000001001111, []⟩ = .ok (.cursor 79#8) ∧
  decode ⟨.req16, 0b0011000000000101, []⟩ = .error .argNotZero ∧
  decode ⟨.gpio8, 0b00010001, []⟩ = .ok (.configure .en 1#2) ∧
  decode ⟨.gpio8, 0b01110001, []⟩ = .ok (.write .d7 1#2) ∧
  decode ⟨.gpio8, 0b01111001, []⟩ = .error .badLine ∧
  decode ⟨.latch6, 0b100100, []⟩ = .ok (.txNibble true 4#4) ∧
  decode ⟨.bus10, 0b0000101000, []⟩ = .ok (.txCommand 0x28#8) ∧
  decode ⟨.bus10, 0b1001000001, []⟩ = .ok (.txChar 0x41#8) ∧
  decode ⟨.hd8, 0b00011100, []⟩ = .ok .hdDisplayShiftRight

/-- The lines of the assembly table of R55, in ASCII, give the request words of that table: `init`, `deinit`, `clear`, `home`,
`shift_left`, `shift_right`, `on`, `off`, `cursor 38`, `text "H\x0A"`. -/
def Obligations.AssemblyGivesTheWords : Prop :=
  assembleLine [0x69#8, 0x6E#8, 0x69#8, 0x74#8] = some (some ⟨.req16, 0x1000, []⟩) ∧
  assembleLine [0x64#8, 0x65#8, 0x69#8, 0x6E#8, 0x69#8, 0x74#8] = some (some ⟨.req16, 0x2000, []⟩) ∧
  assembleLine [0x63#8, 0x6C#8, 0x65#8, 0x61#8, 0x72#8] = some (some ⟨.req16, 0x4000, []⟩) ∧
  assembleLine [0x68#8, 0x6F#8, 0x6D#8, 0x65#8] = some (some ⟨.req16, 0x5000, []⟩) ∧
  assembleLine
      [0x73#8, 0x68#8, 0x69#8, 0x66#8, 0x74#8, 0x5F#8, 0x6C#8, 0x65#8, 0x66#8, 0x74#8]
    = some (some ⟨.req16, 0x6000, []⟩) ∧
  assembleLine
      [0x73#8, 0x68#8, 0x69#8, 0x66#8, 0x74#8, 0x5F#8, 0x72#8, 0x69#8, 0x67#8, 0x68#8, 0x74#8]
    = some (some ⟨.req16, 0x7000, []⟩) ∧
  assembleLine [0x6F#8, 0x6E#8] = some (some ⟨.req16, 0x8000, []⟩) ∧
  assembleLine [0x6F#8, 0x66#8, 0x66#8] = some (some ⟨.req16, 0x9000, []⟩) ∧
  assembleLine [0x63#8, 0x75#8, 0x72#8, 0x73#8, 0x6F#8, 0x72#8, 0x20#8, 0x33#8, 0x38#8] = some (some ⟨.req16, 0xA026, []⟩) ∧
  assembleLine
      [0x74#8, 0x65#8, 0x78#8, 0x74#8, 0x20#8, 0x22#8, 0x48#8, 0x5C#8, 0x78#8, 0x30#8, 0x41#8, 0x22#8]
    = some (some ⟨.req16, 0x3000, [0x48#8, 0x0A#8]⟩)

/-! ## Steps -/

/-- A word driven alone that decodes runs its instruction, in the state without it, and one that does not decode returns E_ARG and
changes nothing else (R49, R51, R93; for latch, bus and command words that is the model's choice, log entry 13). That a word can be
driven alone is the model's choice too (log entry 11). -/
def Obligations.StepRunsThePresentedWord : Prop :=
  ∀ (s : State) (p : Packet), s.bench = some p →
    (∀ i : Instr, decode p = .ok i → step s = exec i { s with bench := none }) ∧
    (∀ e : Reject, decode p = .error e → step s = .next { s with bench := none, returned := some .eArg })

/-- R84: an admitted request leaves `pending`, its rule runs whole in the one step, and its caller gets the status. A caller whose
request ends without a status gets nothing, the model's choice (log entry 7). -/
def Obligations.StepAdmitsAPendingRequest : Prop :=
  ∀ (s : State) (before after : List Pending) (p : Pending) (rest : List Input), s.bench = none →
    s.engine.pending = before ++ p :: after → s.inputs = .admitOne before.length :: rest →
      ∃ t : State,
        exec p.request.toInstr { s with inputs := rest, engine := { s.engine with pending := before ++ after } } = .next t ∧
        (∀ st : Status, t.returned = some st → step s = .next { t with replies := s.replies ++ [⟨p.caller, .status st⟩] }) ∧
        (t.returned = none → step s = .next { t with replies := s.replies })

/-- With no input left nothing happens unless a request is pending, and then some engine with a pending request, whichever the free
choices take (log entry 4), admits one of its own, with its own collaborator, and answers the caller; the other engines stay as they
are (R82, R84, R104). A caller whose request ends without a status gets nothing, the model's choice (log entry 7). -/
def Obligations.EngineTurnAdmitsSomePendingRequest : Prop :=
  ∀ s : State, s.bench = none → s.inputs = [] →
    ((∀ d ∈ displays s, d.engine.pending = []) → step s = .next s) ∧
    ((∃ d ∈ displays s, d.engine.pending ≠ []) →
      ∃ (d : Display) (others : List Display) (before after : List Pending) (p : Pending) (t : State),
        (d :: others).Perm (displays s) ∧ d.engine.pending = before ++ p :: after ∧
        exec p.request.toInstr
          { s with
            engine := { d.engine with pending := before ++ after }
            oracle := { d.oracle with draws := d.oracle.draws + 1 }
            others := others
            turns := s.turns + 1 } = .next t ∧
        (∀ st : Status, t.returned = some st → step s = .next { t with replies := s.replies ++ [⟨p.caller, .status st⟩] }) ∧
        (t.returned = none → step s = .next { t with replies := s.replies }))

/-- No state stops the machine: the block has no traps (60_exceptions.md R97, R98). -/
def Obligations.EveryStepAnswersNext : Prop :=
  ∀ s : State, ∃ t : State, step s = .next t

/-- A request word driven alone does what the word submitted and that very request admitted do in two steps, but that the latter
answer the caller (R83, R84). The single step without a caller is the model's choice (log entry 11), and so is that a caller whose
request ends without a status gets nothing (log entry 7). -/
def Obligations.PresentedRequestIsSubmittedThenAdmitted : Prop :=
  ∀ (s : State) (caller : Caller) (r : Request), argumentOk r = true →
    ∃ t : State, step { s with bench := some r.packet } = .next t ∧
      let submitted := { s with
        bench := none
        inputs := .submit caller r.word r.payload :: .admitOne s.engine.pending.length :: s.inputs }
      (∀ st : Status, t.returned = some st →
        core.run 2 submitted = .next { t with replies := s.replies ++ [⟨caller, .status st⟩] }) ∧
      (t.returned = none → core.run 2 submitted = .next { t with replies := s.replies })

/-- The state in which the next step runs a table word, and that step (10_state.md R14: the block does not fetch; log entry
14). -/
def Obligations.FetchWordRunsNext : Prop :=
  ∀ (s : State) (nbits w : Nat) (i : Instr), decodeTableWord nbits w = some i →
    step (s.withFetchWord nbits w) = exec i { s with bench := none }

/-- R62, R84, R88: while no word is driven alone none is to come, and a step changes an engine only by admitting one of its pending
requests, or in `pending` alone, or makes a fresh one. So keywords, request words and callers reach a primitive only through the
request admitted, which appends nothing where the lifecycle forbids it (R85). -/
def Obligations.OnlyAdmittedRequestsChangeAnEngine : Prop :=
  ∀ s t : State, s.bench = none → step s = .next t →
    t.bench = none ∧
    ∀ d ∈ displays t,
      (∃ l x rest, s.inputs = .construct x :: rest ∧ d.engine = Engine.fresh l) ∨
      ∃ d₀ ∈ displays s,
        (∃ ps : List Pending, d.engine = { d₀.engine with pending := ps }) ∨
        ∃ (before after : List Pending) (p : Pending) (u v : State),
          d₀.engine.pending = before ++ p :: after ∧ u.engine = { d₀.engine with pending := before ++ after } ∧
          u.oracle.answers = d₀.oracle.answers ∧ u.oracle.stream = d₀.oracle.stream ∧
          exec p.request.toInstr u = .next v ∧ d = ⟨v.engine, v.oracle⟩ ∧
          (lifeAllows d₀.engine.life p.request = false → d.engine.trace = d₀.engine.trace)

/-! ## Submission, cancellation, surfaces, construction -/

/-- R83, R49: a word that decodes to no operation and a cursor target of 80 or above are answered E_ARG at submission with nothing
else changed, and any other request waits in `pending`, a multiset held as a list (log entry 5). -/
def Obligations.SubmissionChecksTheRequest : Prop :=
  ∀ (s : State) (caller : Caller) (w : BitVec 16) (p : List Byte) (rest : List Input), s.bench = none →
    s.inputs = .submit caller w p :: rest →
    (∀ e : Reject, decodeReq16 w p = .error e →
      step s = .next { s with inputs := rest, replies := s.replies ++ [⟨caller, .status .eArg⟩] }) ∧
    (∀ r : Request, decodeReq16 w p = .ok r →
      step s = .next
        (if ∃ t : Byte, r = .cursor t ∧ 80 ≤ t.toNat then
          { s with inputs := rest, replies := s.replies ++ [⟨caller, .status .eArg⟩] }
        else
          { s with
            inputs := rest
            engine := { s.engine with pending := s.engine.pending ++ [⟨caller, r⟩] } }))

/-- R88: a cancelled request leaves `pending` with E_INTR for its caller, no event and no other change. -/
def Obligations.CancellationOnlyAbandons : Prop :=
  ∀ (s : State) (before after : List Pending) (p : Pending) (rest : List Input), s.bench = none →
    s.engine.pending = before ++ p :: after → s.inputs = .cancel before.length :: rest →
      step s = .next
        { s with
          inputs := rest
          engine := { s.engine with pending := before ++ after }
          replies := s.replies ++ [⟨p.caller, .status .eIntr⟩] }

/-- R89: a keyword maps to its request only by an exact match, and any other byte string is answered E_ARG at once; the text surface
submits TEXT with its bytes, the cursor surface CURSOR with its number, probe INIT and removal DEINIT. -/
def Obligations.SurfacesMapToTheirRequests : Prop :=
  ∀ (s : State) (caller : Caller) (rest : List Input), s.bench = none →
    (∀ k : List Byte, s.inputs = .surface caller (.cmd k) :: rest →
      (∀ q ∈ ([(kwClear, 0x4000#16), (kwHome, 0x5000#16), (kwShiftLeft, 0x6000#16), (kwShiftRight, 0x7000#16),
          (kwOn, 0x8000#16), (kwOff, 0x9000#16)] : List (List Byte × BitVec 16)),
        k = q.1 → step s = .next (submit caller q.2 [] { s with inputs := rest })) ∧
      (k ∉ [kwClear, kwHome, kwShiftLeft, kwShiftRight, kwOn, kwOff] →
        step s = .next { s with inputs := rest, replies := s.replies ++ [⟨caller, .status .eArg⟩] })) ∧
    (∀ p, s.inputs = .surface caller (.text p) :: rest → step s = .next (submit caller 0x3000#16 p { s with inputs := rest })) ∧
    (∀ n : Byte, s.inputs = .surface caller (.cursor n) :: rest →
      step s = .next (submit caller (0xA000#16 + n.zeroExtend 16) [] { s with inputs := rest })) ∧
    (s.inputs = .surface caller .probe :: rest → step s = .next (submit caller 0x1000#16 [] { s with inputs := rest })) ∧
    (s.inputs = .surface caller .removal :: rest → step s = .next (submit caller 0x2000#16 [] { s with inputs := rest }))

/-- R90 and R25: the two readable surfaces answer the six keywords in their order and the label, and change nothing else. -/
def Obligations.ReadableSurfacesOnlyAnswer : Prop :=
  ∀ (s : State) (caller : Caller) (rest : List Input), s.bench = none →
    (s.inputs = .readKeywords caller :: rest →
      step s = .next
        { s with
          inputs := rest
          replies := s.replies ++ [⟨caller, .keywords
            [[0x63#8, 0x6C#8, 0x65#8, 0x61#8, 0x72#8],
              [0x68#8, 0x6F#8, 0x6D#8, 0x65#8],
              [0x73#8, 0x68#8, 0x69#8, 0x66#8, 0x74#8, 0x5F#8, 0x6C#8, 0x65#8, 0x66#8, 0x74#8],
              [0x73#8, 0x68#8, 0x69#8, 0x66#8, 0x74#8, 0x5F#8, 0x72#8, 0x69#8, 0x67#8, 0x68#8, 0x74#8],
              [0x6F#8, 0x6E#8],
              [0x6F#8, 0x66#8, 0x66#8]]⟩] }) ∧
    (s.inputs = .readLabel caller :: rest →
      step s = .next { s with inputs := rest, replies := s.replies ++ [⟨caller, .label s.engine.label⟩] })

/-- R107, R108, R25, R26: construction makes a new engine with every field at its value of R17, labelled explicitly or by the
ordinal, increments the registry's counter, and leaves the engine before it and its collaborator as they were. The
answers of the new engine's collaborator are free (R57; log entry 3). -/
def Obligations.ConstructionMakesAFreshEngine : Prop :=
  ∀ (s : State) (l : Option (List Byte)) (rest : List Input), s.bench = none → s.inputs = .construct l :: rest →
    step s = .next
      { s with
        inputs := rest
        others := ⟨s.engine, s.oracle⟩ :: s.others
        oracle := ⟨[], s.nextOrdinal, 0⟩
        nextOrdinal := s.nextOrdinal + 1
        engine :=
          { lines := ⟨⟨false, .unconf, none⟩, ⟨false, .unconf, none⟩, ⟨false, .unconf, none⟩, ⟨false, .unconf, none⟩,
              ⟨false, .unconf, none⟩, ⟨false, .unconf, none⟩, ⟨false, .unconf, none⟩⟩
            cursor := 0
            life := .constructed
            pending := []
            label :=
              match l with
              | some bytes => bytes
              | none => defaultLabel s.nextOrdinal
            trace := []
            fault := none } }

/-- R25: the default label is the six bytes of `l1602-` and the ordinal in decimal: ASCII digits whose value it is, with no zero in
front of others. -/
def Obligations.DefaultLabelIsTheDecimalOrdinal : Prop :=
  ∀ n : Nat, ∃ digits : List Byte,
    defaultLabel n = [0x6C#8, 0x31#8, 0x36#8, 0x30#8, 0x32#8, 0x2D#8] ++ digits ∧ digits ≠ [] ∧
    (∀ d ∈ digits, 0x30 ≤ d.toNat ∧ d.toNat ≤ 0x39) ∧
    digits.foldl (fun value d => 10 * value + (d.toNat - 0x30)) 0 = n ∧
    (digits.head? = some 0x30#8 → digits = [0x30#8])

/-- R107: the engine at reset has every field but its label at the value R17 gives. -/
def Obligations.ResetIsConstruction : Prop :=
  State.reset.engine.cursor = 0 ∧ State.reset.engine.life = .constructed ∧ State.reset.engine.pending = [] ∧
  State.reset.engine.trace = [] ∧ State.reset.engine.fault = none ∧
  ∀ r : Role, lineOf State.reset.engine.lines r = ⟨false, .unconf, none⟩

/-! ## The line primitives -/

/-- R58: a VAL that is no direction is E_ARG; an OUTPUT drives the line low and an INPUT leaves it undriven; a failure is
E_HWCFG and leaves the line; the event is appended either way. -/
def Obligations.ConfigureSetsTheDirection : Prop :=
  ∀ (s : State) (r : Role) (val : BitVec 2),
    (2 ≤ val.toNat → exec (.configure r val) s = .next { s with returned := some .eArg }) ∧
    (∀ d : Direction, (val = 0#2 ∧ d = .input) ∨ (val = 1#2 ∧ d = .output) →
      (nextAnswer s.oracle = true →
        exec (.configure r val) s = .next
          { s with
            engine := { s.engine with
              trace := s.engine.trace ++ [.cfg r d true]
              lines := setLine r
                { lineOf s.engine.lines r with
                  dir := if d = .output then .output else .input
                  lvl := if d = .output then some false else none } s.engine.lines }
            oracle := restAnswers s.oracle
            returned := some .ok }) ∧
      (nextAnswer s.oracle = false →
        exec (.configure r val) s = .next
          { s with
            engine := { s.engine with trace := s.engine.trace ++ [.cfg r d false] }
            oracle := restAnswers s.oracle
            returned := some .eHwCfg }))

/-- R59: a VAL that is no level is E_ARG; on an output the level is driven and the event appended, also when the line holds that
level already; a failure is E_IO and leaves the level. -/
def Obligations.WriteDrivesTheLevel : Prop :=
  ∀ (s : State) (r : Role) (val : BitVec 2),
    (2 ≤ val.toNat → exec (.write r val) s = .next { s with returned := some .eArg }) ∧
    (∀ v : Bit, val = BitVec.ofNat 2 v.toNat → (lineOf s.engine.lines r).dir = .output →
      (nextAnswer s.oracle = true →
        exec (.write r val) s = .next
          { s with
            engine := { s.engine with
              trace := s.engine.trace ++ [.wr r v true]
              lines := setLine r { lineOf s.engine.lines r with lvl := some v } s.engine.lines }
            oracle := restAnswers s.oracle
            returned := some .ok }) ∧
      (nextAnswer s.oracle = false →
        exec (.write r val) s = .next
          { s with
            engine := { s.engine with trace := s.engine.trace ++ [.wr r v false] }
            oracle := restAnswers s.oracle
            returned := some .eIo }))

/-- R60: a legal write to a line that is not an output sets the sticky fault with the line and appends no event. That it returns
no status is the model's choice (log entry 7). -/
def Obligations.WriteToNonOutputSetsTheFault : Prop :=
  ∀ (s : State) (r : Role) (val : BitVec 2), val.toNat < 2 → (lineOf s.engine.lines r).dir ≠ .output →
    exec (.write r val) s = .next
      { s with engine := { s.engine with fault := some (.writeNotOutput r) }, returned := none }

/-- The multiplexer passes a call to one line alone (R56). -/
def Obligations.LineCallsReachOneLine : Prop :=
  ∀ (s t : State) (r q : Role) (val : BitVec 2), q ≠ r →
    exec (.configure r val) s = .next t ∨ exec (.write r val) s = .next t →
      lineOf t.engine.lines q = lineOf s.engine.lines q

/-! ## Transmission -/

/-- R63, on outputs that answer: the ten events, the levels, and nothing else but the seven answers used. That it returns OK is the
model's choice (log entry 24). -/
def Obligations.NibbleTransmissionCompletes : Prop :=
  ∀ (s : State) (rs : Bit) (n : Nibble),
    (∀ r ∈ [Role.en, .d4, .d5, .d6, .d7], (lineOf s.engine.lines r).dir = .output) → reliable 7 s.oracle = true →
      exec (.txNibble rs n) s = .next
        (succeeded (nibbleEvents n) (afterNibble n s.engine.lines) s.engine.cursor s.engine.life 7 s)

/-- R65, R66, R54: TxCommand and the eleven command bytes send their byte with RS low and leave the cursor; TxChar sends its byte
with RS high and advances the cursor by one modulo 80. That each returns OK is the model's choice (log entry 24). -/
def Obligations.ByteTransmissionCompletes : Prop :=
  ∀ s : State, Outputs s.engine.lines → reliable 16 s.oracle = true →
    (∀ b : Byte,
      exec (.txCommand b) s = .next
        (succeeded (byteEvents false b) (afterByte false b s.engine.lines) s.engine.cursor s.engine.life 16 s) ∧
      exec (.txChar b) s = .next
        (succeeded (byteEvents true b) (afterByte true b s.engine.lines) (s.engine.cursor + 1) s.engine.life 16 s)) ∧
    (∀ q ∈ hdCommands Config.commandBytes,
      exec q.1 s = .next
        (succeeded (byteEvents false q.2) (afterByte false q.2 s.engine.lines) s.engine.cursor s.engine.life 16 s))

/-- The nibble and the byte latch exactly the values R63, R65 and R66 give, from lines whose enable line is not high. -/
def Obligations.TransmissionLatchesItsNibbles : Prop :=
  ∀ ls : LineSet, ls.en.lvl ≠ some true →
    (∀ n : Nibble, latchesFrom ls (nibbleEvents n) = [nibbleLatch ls.rs.lvl ls.rw.lvl n]) ∧
    (∀ (rs : Bit) (b : Byte), latchesFrom ls (byteEvents rs b) = byteLatches rs b)

/-- The latch words of a byte's two nibbles are `{RS, 0, nibble}`, and they pair into the bus word `{RS, 0, byte}`, the word that
decodes to the transmission of that byte (30_encoding.md R52, R53). R52 gives that layout and RS = 1 for a character, but also the
pattern `0b0xxxxx` for every latch word, against which the words of a character have bit 5 set: that is the model's reading (log
entry 25), as 95_test_vectors.md L2-3 has them, 0x24 and 0x21. -/
def Obligations.LatchedBytePairsIntoItsBusWord : Prop :=
  ∀ (rs : Bit) (b : Byte), ∃ hi lo : BitVec 6,
    (byteLatches rs b).map latchWord = [some hi, some lo] ∧
    hi = BitVec.ofBool rs ++ 0#1 ++ b.extractLsb' 4 4 ∧ lo = BitVec.ofBool rs ++ 0#1 ++ b.extractLsb' 0 4 ∧
    pairWord hi lo = some (BitVec.ofBool rs ++ 0#1 ++ b) ∧
    decodeBus10 (BitVec.ofBool rs ++ 0#1 ++ b) = .ok (if rs then .txChar b else .txCommand b)

/-! ## Operations in READY -/

/-- R75, R76, R80, R81: the command, then the 100 µs wait, and the cursor unchanged. -/
def Obligations.ShiftAndSwitchOperationsComplete : Prop :=
  ∀ s : State, s.engine.life = .ready → Outputs s.engine.lines → reliable 16 s.oracle = true →
    ∀ q ∈ [(Instr.shiftLeft, Config.commandBytes.displayShiftLeft), (Instr.shiftRight, Config.commandBytes.displayShiftRight),
        (Instr.on, Config.commandBytes.allOn), (Instr.off, Config.commandBytes.allOff)],
      exec q.1 s = .next
        (succeeded (byteEvents false q.2 ++ [.dly 100]) (afterByte false q.2 s.engine.lines) s.engine.cursor .ready 16 s)

/-- R73, R74, R71: the command, then the cursor at 0, then the 2 ms wait; DEINIT does the same and leaves TORN_DOWN. -/
def Obligations.ClearAndHomeComplete : Prop :=
  ∀ s : State, s.engine.life = .ready → Outputs s.engine.lines → reliable 16 s.oracle = true →
    ∀ q ∈ [(Instr.clear, Config.commandBytes.clear, Life.ready), (Instr.home, Config.commandBytes.home, Life.ready),
        (Instr.deinit, Config.commandBytes.clear, Life.tornDown)],
      exec q.1 s = .next
        (succeeded (byteEvents false q.2.1 ++ [.dly 2000]) (afterByte false q.2.1 s.engine.lines) 0 q.2.2 16 s)

/-- R72: the first 80 bytes as characters, in order, and the cursor moved by their number modulo 80. -/
def Obligations.TextCompletes : Prop :=
  ∀ (s : State) (p : List Byte), s.engine.life = .ready → Outputs s.engine.lines →
    reliable (16 * min p.length 80) s.oracle = true →
      exec (.text p) s = .next
        (succeeded ((p.take 80).flatMap (byteEvents true)) ((p.take 80).foldl (fun ls b => afterByte true b ls) s.engine.lines)
          (Fin.ofNat 80 (s.engine.cursor.val + min p.length 80)) .ready (16 * min p.length 80) s)

/-- R78: single cursor-shift commands towards the target, as many as the linear distance, and the cursor at the target. -/
def Obligations.CursorCompletes : Prop :=
  ∀ (s : State) (target : Fin 80), s.engine.life = .ready → Outputs s.engine.lines →
    let here := s.engine.cursor
    let steps := (target.val - here.val) + (here.val - target.val)
    let cmd := if here < target then Config.commandBytes.cursorShiftRight else Config.commandBytes.cursorShiftLeft
    reliable (16 * steps) s.oracle = true →
      exec (.cursor (BitVec.ofNat 8 target.val)) s = .next
        (succeeded (List.replicate steps (byteEvents false cmd)).flatten
          (if steps = 0 then s.engine.lines else afterByte false cmd s.engine.lines) target .ready (16 * steps) s)

/-- R67: from CONSTRUCTED, with every line available and every call answered ok, INIT appends the 142 events and leaves READY,
the cursor at 0, and every line an acquired output. -/
def Obligations.InitCompletes : Prop :=
  ∀ s : State, s.engine.life = .constructed → reliable 108 s.oracle = true →
    exec .init s = .next
      (succeeded (initEvents Config.commandBytes) (linesAfterInit Config.commandBytes) 0 .ready 108 s)

/-- R69: from a freshly constructed engine, an INIT that succeeds latches three 0x3 nibbles, one 0x2 nibble, then function set,
display on, clear and entry mode, high nibble first with RS and RW low, and no other value, and leaves the cursor at 0. The first
clause says it of the events of INIT over any command bytes. -/
def Obligations.InitLatchesTheResetPattern : Prop :=
  (∀ c : CommandBytes,
    latches (initEvents c)
      = initLatches ++ byteLatches false c.functionSet ++ byteLatches false c.displayOnCursorOn ++ byteLatches false c.clear
        ++ byteLatches false c.entryModeInc) ∧
  ∀ s : State, s.engine.life = .constructed → s.engine.trace = [] → reliable 108 s.oracle = true →
    ∃ t : State, exec .init s = .next t ∧ t.engine.cursor = 0 ∧
      latches t.engine.trace
        = initLatches ++ byteLatches false Config.commandBytes.functionSet
          ++ byteLatches false Config.commandBytes.displayOnCursorOn ++ byteLatches false Config.commandBytes.clear
          ++ byteLatches false Config.commandBytes.entryModeInc

/-- R116: the least times and the numbers of events of the transmissions and of INIT. -/
def Obligations.LeastTimesAndEventCounts : Prop :=
  ∀ (c : CommandBytes) (rs : Bit) (b : Byte) (n : Nibble) (p : List Byte) (k : Nat),
    (minTime (nibbleEvents n), (nibbleEvents n).length) = (102, 10) ∧
    (minTime (byteEvents rs b), (byteEvents rs b).length) = (204, 22) ∧
    (minTime (initEvents c), (initEvents c).length) = (1048324, 142) ∧
    (minTime (byteEvents rs b ++ [Event.dly 2000]), (byteEvents rs b ++ [Event.dly 2000]).length) = (2204, 23) ∧
    (minTime (byteEvents rs b ++ [Event.dly 100]), (byteEvents rs b ++ [Event.dly 100]).length) = (304, 23) ∧
    (minTime (p.flatMap (byteEvents true)), (p.flatMap (byteEvents true)).length) = (204 * p.length, 22 * p.length) ∧
    (minTime (List.replicate k (byteEvents rs b)).flatten, (List.replicate k (byteEvents rs b)).flatten.length)
      = (204 * k, 22 * k)

/-! ## Failures -/

/-- A write that fails inside a command ends the operation there: its event is the last, E_IO is returned, the cursor keeps its
value, so a clear or home does not reset it, and only DEINIT changes the lifecycle (R65, R71, R73 to R76, R80, R81, R94). -/
def Obligations.FailedWriteEndsACommand : Prop :=
  ∀ (s : State) (k : Nat), s.engine.life = .ready → Outputs s.engine.lines → k < 16 → failsAt k s.oracle = true →
    ∀ q ∈ [(Instr.clear, Config.commandBytes.clear, Life.ready), (Instr.home, Config.commandBytes.home, Life.ready),
        (Instr.shiftLeft, Config.commandBytes.displayShiftLeft, Life.ready),
        (Instr.shiftRight, Config.commandBytes.displayShiftRight, Life.ready), (Instr.on, Config.commandBytes.allOn, Life.ready),
        (Instr.off, Config.commandBytes.allOff, Life.ready), (Instr.deinit, Config.commandBytes.clear, Life.tornDown)],
      exec q.1 s = .next (failedWrite (byteEvents false q.2.1) k s.engine.cursor q.2.2 s)

/-- A write that fails inside a primitive driven alone ends it there: E_IO, the failed write the last event, and no advance of
the cursor (R63, R65, R66; 95_test_vectors.md L2-2). The command bytes end as the command they are (R54, R65; log entry 10). -/
def Obligations.FailedWriteEndsATransmission : Prop :=
  ∀ (s : State) (k : Nat), Outputs s.engine.lines → failsAt k s.oracle = true →
    (∀ (rs : Bit) (n : Nibble), k < 7 →
      exec (.txNibble rs n) s = .next (failedWrite (nibbleEvents n) k s.engine.cursor s.engine.life s)) ∧
    (∀ b : Byte, k < 16 →
      exec (.txCommand b) s = .next (failedWrite (byteEvents false b) k s.engine.cursor s.engine.life s) ∧
      exec (.txChar b) s = .next (failedWrite (byteEvents true b) k s.engine.cursor s.engine.life s)) ∧
    (∀ q ∈ hdCommands Config.commandBytes, k < 16 →
      exec q.1 s = .next (failedWrite (byteEvents false q.2) k s.engine.cursor s.engine.life s))

/-- R72: a text whose k-th call fails has advanced the cursor by its completed characters, each of which made 16 calls. -/
def Obligations.FailedWriteEndsAText : Prop :=
  ∀ (s : State) (p : List Byte) (k : Nat), s.engine.life = .ready → Outputs s.engine.lines → k < 16 * min p.length 80 →
    failsAt k s.oracle = true →
      exec (.text p) s = .next
        (failedWrite ((p.take 80).flatMap (byteEvents true)) k (Fin.ofNat 80 (s.engine.cursor.val + k / 16)) .ready s)

/-- R78: a cursor move whose k-th call fails has moved by its completed steps towards the target. -/
def Obligations.FailedWriteEndsACursorMove : Prop :=
  ∀ (s : State) (target : Fin 80) (k : Nat), s.engine.life = .ready → Outputs s.engine.lines →
    let here := s.engine.cursor
    let steps := (target.val - here.val) + (here.val - target.val)
    let cmd := if here < target then Config.commandBytes.cursorShiftRight else Config.commandBytes.cursorShiftLeft
    k < 16 * steps → failsAt k s.oracle = true →
      exec (.cursor (BitVec.ofNat 8 target.val)) s = .next
        (failedWrite (List.replicate steps (byteEvents false cmd)).flatten k
          (Fin.ofNat 80 (if here < target then here.val + k / 16 else here.val - k / 16)) .ready s)

/-- R67: an unavailable line or a failed configuration is E_HWCFG, a failed write of the power-on sequence is E_IO, and each
leaves FAILED. The first seven answers are the acquisitions', which append no event, the next seven the configurations', and
before the 93rd the embedded clear has not reset the cursor. Lines stay acquired and configured as far as INIT got. -/
def Obligations.FailedInitLeavesFailed : Prop :=
  ∀ (s : State) (k : Nat), s.engine.life = .constructed → k < 108 → failsAt k s.oracle = true →
    let evs := if k < 7 then [] else cutAt (k - 7) (initEvents Config.commandBytes)
    ∃ ls : LineSet,
      exec .init s = .next
        { s with
          engine := { s.engine with
            lines := ls
            cursor := if k < 92 then s.engine.cursor else 0
            life := .failed
            trace := s.engine.trace ++ evs }
          oracle := skipAnswers (k + 1) s.oracle
          returned := some (if k < 14 then .eHwCfg else .eIo) } ∧
      ∀ r : Role,
        (lineOf ls r).acq = ((lineOf s.engine.lines r).acq || decide (r.index.toNat < k)) ∧
        (lineOf ls r).dir = (lineOf (replay s.engine.lines evs) r).dir ∧
        (lineOf ls r).lvl = (lineOf (replay s.engine.lines evs) r).lvl

/-- R27, R97: whatever the answers, an instruction only appends to the trace, a failed call can only be the last event, and it is
the last event exactly when the status is E_IO, or E_HWCFG from a configuration. -/
def Obligations.OnlyTheLastEventCanFail : Prop :=
  ∀ (i : Instr) (s t : State), exec i s = .next t →
    ∃ evs : List Event, t.engine.trace = s.engine.trace ++ evs ∧ NoFailedCall evs.dropLast ∧
      (NoFailedCall evs → t.returned ≠ some .eIo) ∧
      (¬ NoFailedCall evs → t.returned = some .eIo ∨ t.returned = some .eHwCfg)

/-- R60 inside a transmission driven alone, the command bytes' included: the events before the first write to a line that is not an
output, as R63, R65 and R66 give them, then the sticky fault with that line. That the transmission ends there without a status is
the model's choice (log entry 7), and that a command byte alone is TxCommand alone is the model's reading (log entry 10). -/
def Obligations.NonOutputLineEndsATransmission : Prop :=
  ∀ (s : State) (r : Role) (v : Bit),
    (∀ (rs : Bit) (n : Nibble),
      let evs := beforeNonOutput s.engine.lines (nibbleEvents n)
      (nibbleEvents n)[evs.length]? = some (.wr r v true) → reliable (callCount evs) s.oracle = true →
        exec (.txNibble rs n) s = .next (stoppedAtNonOutput evs r s)) ∧
    (∀ (rs : Bit) (b : Byte),
      let evs := beforeNonOutput s.engine.lines (byteEvents rs b)
      (byteEvents rs b)[evs.length]? = some (.wr r v true) → reliable (callCount evs) s.oracle = true →
        exec (if rs then .txChar b else .txCommand b) s = .next (stoppedAtNonOutput evs r s)) ∧
    (∀ q ∈ hdCommands Config.commandBytes,
      let evs := beforeNonOutput s.engine.lines (byteEvents false q.2)
      (byteEvents false q.2)[evs.length]? = some (.wr r v true) → reliable (callCount evs) s.oracle = true →
        exec q.1 s = .next (stoppedAtNonOutput evs r s))

/-- An instruction returns no status only where it set the fault WRITE_NOT_OUTPUT, with a line that is not an output, and with a
status it leaves the fault, or sets LIFECYCLE_VIOLATION and returns E_STATE (R28, R60, R85, R93; log entry 7). -/
def Obligations.StatusAndFaultAgree : Prop :=
  ∀ (i : Instr) (s t : State), exec i s = .next t →
    (t.returned = none →
      ∃ r, t.engine.fault = some (.writeNotOutput r) ∧ (lineOf t.engine.lines r).dir ≠ .output) ∧
    (t.returned ≠ none →
      t.engine.fault = s.engine.fault ∨
      ∃ d, t.engine.fault = some (.lifecycleViolation d) ∧ t.returned = some .eState)

/-! ## Lifecycle and priority -/

/-- R85: the table of allowed requests, and what a request outside it does when admitted: E_STATE, the sticky fault with that
request, no event and no other change. -/
def Obligations.ForbiddenRequestIsAViolation : Prop :=
  (∀ r : Request, lifeAllows .constructed r = true ↔ r = .init) ∧
  (∀ r : Request, lifeAllows .ready r = true ↔ r ≠ .init) ∧
  (∀ r : Request, lifeAllows .failed r = false ∧ lifeAllows .tornDown r = false) ∧
  ∀ (s : State) (r : Request), argumentOk r = true → lifeAllows s.engine.life r = false →
    exec r.toInstr s = .next
      { s with engine := { s.engine with fault := some (.lifecycleViolation r) }, returned := some .eState }

/-- R78, R96: a cursor target of 80 or above is an argument error in every lifecycle state, and sets no fault. A request submitted with
such a target never gets this far (SubmissionChecksTheRequest); that the instruction itself makes the check, before the lifecycle's,
for a word driven alone is the model's reading (log entry 8). -/
def Obligations.ArgumentErrorComesFirst : Prop :=
  ∀ (s : State) (t : Byte), 80 ≤ t.toNat → exec (.cursor t) s = .next { s with returned := some .eArg }

/-- R23: from CONSTRUCTED, INIT leaves READY when it returns OK and FAILED when it returns an error, which is E_HWCFG or E_IO; from
READY, DEINIT leaves TORN_DOWN whatever it returns; nothing else changes the lifecycle, so FAILED and TORN_DOWN have no way
out. That DEINIT leaves TORN_DOWN also where it ends without a status, at a line that is no output, which R23 does not give, is the
model's choice (log entry 7). -/
def Obligations.LifecycleTransitions : Prop :=
  ∀ (i : Instr) (s t : State), exec i s = .next t →
    t.engine.life =
      (if s.engine.life = .constructed ∧ i = .init then if t.returned = some .ok then .ready else .failed
      else if s.engine.life = .ready ∧ i = .deinit then .tornDown
      else s.engine.life) ∧
    (s.engine.life = .constructed → i = .init →
      t.returned = some .ok ∨ t.returned = some .eHwCfg ∨ t.returned = some .eIo)

/-- INIT, and every request admitted in READY with outputs, has a status (R93), and from CONSTRUCTED or READY it is never
E_STATE when the table of R85 allows the request. -/
def Obligations.AllowedRequestsReturnAStatus : Prop :=
  ∀ (s : State) (r : Request), argumentOk r = true → lifeAllows s.engine.life r = true →
    (s.engine.life = .ready → Outputs s.engine.lines) →
      ∃ t : State, exec r.toInstr s = .next t ∧ t.engine.fault = s.engine.fault ∧
        (t.returned = some .ok ∨ t.returned = some .eIo ∨ (r = .init ∧ t.returned = some .eHwCfg))

/-! ## Frames -/

/-- No instruction changes the pending requests, the label, the other engines, the registry's counter, the inputs to come, the
replies, or the model's own bench, count of turns and number of the collaborator's stream (R25, R41, R84). -/
def Obligations.InstructionsLeaveTheOtherAgentsAlone : Prop :=
  ∀ (i : Instr) (s t : State), exec i s = .next t →
    t.engine.pending = s.engine.pending ∧ t.engine.label = s.engine.label ∧ t.others = s.others ∧
    t.nextOrdinal = s.nextOrdinal ∧ t.inputs = s.inputs ∧ t.replies = s.replies ∧
    t.bench = s.bench ∧ t.turns = s.turns ∧ t.oracle.stream = s.oracle.stream

/-- R21: only INIT, DEINIT, text, clear, home, cursor and TxChar write the cursor, whatever the answers. -/
def Obligations.OnlyCursorOperationsMoveTheCursor : Prop :=
  ∀ (i : Instr) (s t : State), exec i s = .next t → t.engine.cursor ≠ s.engine.cursor →
    (∃ p, i = .text p) ∨ (∃ x, i = .cursor x) ∨ (∃ b, i = .txChar b) ∨ i ∈ [Instr.init, .deinit, .clear, .home]

/-- R19, R58: only INIT acquires lines, and only INIT and CONFIGURE set a direction, whatever the answers. -/
def Obligations.OnlyInitAndConfigureSetUpLines : Prop :=
  ∀ (i : Instr) (s t : State) (r : Role), exec i s = .next t →
    ((lineOf t.engine.lines r).acq ≠ (lineOf s.engine.lines r).acq → i = .init) ∧
    ((lineOf t.engine.lines r).dir ≠ (lineOf s.engine.lines r).dir → i = .init ∨ ∃ val, i = .configure r val)

/-- What happens to one engine does not depend on the other engines and their collaborators and does not change them, and turning
to another engine changes none (R41, R104). -/
def Obligations.EnginesAreIndependent : Prop :=
  ∀ s t : State, step s = .next t →
    ((s.bench ≠ none ∨ ∃ i rest, s.inputs = i :: rest ∧ changesEngine i = false) →
      t.others = s.others ∧ ∀ os : List Display, step { s with others := os } = .next { t with others := os }) ∧
    (∀ k rest, s.bench = none → s.inputs = .turnTo k :: rest →
      (displays t).Perm (displays s) ∧
      t = { s with inputs := rest, engine := t.engine, oracle := t.oracle, others := t.others })

/-! ## Invariants -/

/-- The directions and levels of every engine are those its trace leaves (R18, R27), after every step, line calls driven alone
included. -/
def Obligations.StepKeepsLevelsTracked : Prop :=
  ∀ s t : State, EveryEngine Tracked s → step s = .next t → EveryEngine Tracked t

/-- A line that is an output holds level 0 or 1 (R61), after every step, failed calls and line calls driven alone included. -/
def Obligations.StepKeepsOutputLevels : Prop :=
  ∀ s t : State, EveryEngine OutputsHoldLevels s → step s = .next t → EveryEngine OutputsHoldLevels t

/-- While requests alone drive the engines: an engine in READY or TORN_DOWN has every line acquired, an output and at a level;
RW is never driven high; and no line that is not an output is written (R19, R38, R60). -/
def Obligations.StepKeepsEnginesUsable : Prop :=
  ∀ s t : State, RequestsOnly s → step s = .next t → RequestsOnly t

/-- The invariants hold at reset. -/
def Obligations.ResetMeetsTheInvariants : Prop :=
  EveryEngine Tracked State.reset ∧ EveryEngine OutputsHoldLevels State.reset ∧ RequestsOnly State.reset ∧
  EveryEngine Paired State.reset

/-- R34: while requests alone drive the engines, in a trace without a failed call the latches are the four nibbles of INIT and
then pair into whole bytes, each pair with one RS level and RW low. -/
def Obligations.StepKeepsLatchesPaired : Prop :=
  ∀ s t : State, RequestsOnly s → EveryEngine Tracked s → EveryEngine Paired s → step s = .next t → EveryEngine Paired t

/-! ## Concurrency -/

/-- R91: N callers' pending texts "A" on a READY engine, admitted in any order with every answer ok, leave the cursor N further
modulo 80, nothing pending, every caller's status OK, and in the trace N copies of the one character's block, nothing between
them. -/
def Obligations.ConcurrentTextsAreSerialized : Prop :=
  ∀ (s : State) (order : List Nat), s.bench = none → s.engine.life = .ready → Outputs s.engine.lines →
    (∀ p ∈ s.engine.pending, p.request = .text [0x41#8]) → order.length = s.engine.pending.length →
    s.inputs = order.map .admitOne → reliable (16 * order.length) s.oracle = true →
      ∃ t : State, core.run order.length s = .next t ∧
        t.engine.cursor = Fin.ofNat 80 (s.engine.cursor.val + order.length) ∧ t.engine.pending = [] ∧
        t.engine.trace = s.engine.trace ++ (List.replicate order.length (byteEvents true 0x41#8)).flatten ∧
        ∃ answered : List Caller, answered.Perm (s.engine.pending.map Pending.caller) ∧
          t.replies = s.replies ++ answered.map fun c => ⟨c, .status .ok⟩
end

