-- ==== Sys2Proof/Laws/State.lean ====
section
/-! SUPPORT. The small lemmas of the state: one per field and update, so that no proof unfolds a record. -/

namespace Sys2Proof.Machine

section Lines

variable (ls : LineSet) (l : Line) (r q : Role) (f : Line → Line) (e : Engine)

@[simp] theorem lineOf_setLine_same : lineOf (setLine r l ls) r = l := by cases r <;> rfl

theorem lineOf_setLine_other (h : q ≠ r) : lineOf (setLine r l ls) q = lineOf ls q := by
  cases r <;> cases q <;> first | rfl | exact absurd rfl h

theorem lineOf_setLine : lineOf (setLine r l ls) q = if q = r then l else lineOf ls q := by
  split
  · next h => subst h; exact lineOf_setLine_same ..
  · next h => exact lineOf_setLine_other _ _ _ _ h

/-- Two line sets are equal when every role's line is. -/
theorem lineSet_ext {a b : LineSet} (h : ∀ r, lineOf a r = lineOf b r) : a = b := by
  cases a; cases b
  simp only [LineSet.mk.injEq]
  exact ⟨h .rs, h .rw, h .en, h .d4, h .d5, h .d6, h .d7⟩

@[simp] theorem lineAcquired_acq : (lineAcquired l).acq = true := rfl
@[simp] theorem lineAcquired_dir : (lineAcquired l).dir = l.dir := rfl
@[simp] theorem lineAcquired_lvl : (lineAcquired l).lvl = l.lvl := rfl
@[simp] theorem lineDriven_acq (v : Bit) : (lineDriven v l).acq = l.acq := rfl
@[simp] theorem lineDriven_dir (v : Bit) : (lineDriven v l).dir = l.dir := rfl
@[simp] theorem lineDriven_lvl (v : Bit) : (lineDriven v l).lvl = some v := rfl
@[simp] theorem lineConfigured_acq (d : Direction) : (lineConfigured d l).acq = l.acq := by cases d <;> rfl
@[simp] theorem lineConfigured_output_dir : (lineConfigured .output l).dir = .output := rfl
@[simp] theorem lineConfigured_output_lvl : (lineConfigured .output l).lvl = some false := rfl
@[simp] theorem lineConfigured_input_dir : (lineConfigured .input l).dir = .input := rfl
@[simp] theorem lineConfigured_input_lvl : (lineConfigured .input l).lvl = none := rfl

@[simp] theorem onLine_lines : (onLine r f e).lines = setLine r (f (lineOf e.lines r)) e.lines := rfl
@[simp] theorem onLine_cursor : (onLine r f e).cursor = e.cursor := rfl
@[simp] theorem onLine_life : (onLine r f e).life = e.life := rfl
@[simp] theorem onLine_pending : (onLine r f e).pending = e.pending := rfl
@[simp] theorem onLine_label : (onLine r f e).label = e.label := rfl
@[simp] theorem onLine_trace : (onLine r f e).trace = e.trace := rfl
@[simp] theorem onLine_fault : (onLine r f e).fault = e.fault := rfl

@[simp] theorem logEvent_lines (ev : Event) : (logEvent ev e).lines = e.lines := rfl
@[simp] theorem logEvent_cursor (ev : Event) : (logEvent ev e).cursor = e.cursor := rfl
@[simp] theorem logEvent_life (ev : Event) : (logEvent ev e).life = e.life := rfl
@[simp] theorem logEvent_pending (ev : Event) : (logEvent ev e).pending = e.pending := rfl
@[simp] theorem logEvent_label (ev : Event) : (logEvent ev e).label = e.label := rfl
@[simp] theorem logEvent_trace (ev : Event) : (logEvent ev e).trace = e.trace ++ [ev] := rfl
@[simp] theorem logEvent_fault (ev : Event) : (logEvent ev e).fault = e.fault := rfl

@[simp] theorem setFault_lines (x : FaultReason) : (setFault x e).lines = e.lines := rfl
@[simp] theorem setFault_cursor (x : FaultReason) : (setFault x e).cursor = e.cursor := rfl
@[simp] theorem setFault_life (x : FaultReason) : (setFault x e).life = e.life := rfl
@[simp] theorem setFault_pending (x : FaultReason) : (setFault x e).pending = e.pending := rfl
@[simp] theorem setFault_label (x : FaultReason) : (setFault x e).label = e.label := rfl
@[simp] theorem setFault_trace (x : FaultReason) : (setFault x e).trace = e.trace := rfl
@[simp] theorem setFault_fault (x : FaultReason) : (setFault x e).fault = some x := rfl

end Lines

section Whole

variable (s : State) (st : Status) (c : Caller) (a : Answer) (ps : List Pending)

@[simp] theorem returning_engine : (returning st s).engine = s.engine := rfl
@[simp] theorem returning_others : (returning st s).others = s.others := rfl
@[simp] theorem returning_nextOrdinal : (returning st s).nextOrdinal = s.nextOrdinal := rfl
@[simp] theorem returning_inputs : (returning st s).inputs = s.inputs := rfl
@[simp] theorem returning_oracle : (returning st s).oracle = s.oracle := rfl
@[simp] theorem returning_bench : (returning st s).bench = s.bench := rfl
@[simp] theorem returning_turns : (returning st s).turns = s.turns := rfl
@[simp] theorem returning_returned : (returning st s).returned = some st := rfl
@[simp] theorem returning_replies : (returning st s).replies = s.replies := rfl

@[simp] theorem finish_engine (f : Life → Ending → Life) (run : Run) :
    (finish f run s).engine = { run.engine with life := f run.engine.life run.ending } := rfl
@[simp] theorem finish_others (f : Life → Ending → Life) (run : Run) : (finish f run s).others = s.others := rfl
@[simp] theorem finish_nextOrdinal (f : Life → Ending → Life) (run : Run) :
    (finish f run s).nextOrdinal = s.nextOrdinal := rfl
@[simp] theorem finish_inputs (f : Life → Ending → Life) (run : Run) : (finish f run s).inputs = s.inputs := rfl
@[simp] theorem finish_bench (f : Life → Ending → Life) (run : Run) : (finish f run s).bench = s.bench := rfl
@[simp] theorem finish_turns (f : Life → Ending → Life) (run : Run) : (finish f run s).turns = s.turns := rfl
@[simp] theorem finish_oracle (f : Life → Ending → Life) (run : Run) : (finish f run s).oracle = run.oracle := rfl
@[simp] theorem finish_returned (f : Life → Ending → Life) (run : Run) :
    (finish f run s).returned = endingStatus run.ending := rfl
@[simp] theorem finish_replies (f : Life → Ending → Life) (run : Run) : (finish f run s).replies = s.replies := rfl

@[simp] theorem reply_engine : (reply c a s).engine = s.engine := rfl
@[simp] theorem reply_others : (reply c a s).others = s.others := rfl
@[simp] theorem reply_nextOrdinal : (reply c a s).nextOrdinal = s.nextOrdinal := rfl
@[simp] theorem reply_inputs : (reply c a s).inputs = s.inputs := rfl
@[simp] theorem reply_oracle : (reply c a s).oracle = s.oracle := rfl
@[simp] theorem reply_bench : (reply c a s).bench = s.bench := rfl
@[simp] theorem reply_turns : (reply c a s).turns = s.turns := rfl
@[simp] theorem reply_returned : (reply c a s).returned = s.returned := rfl
@[simp] theorem reply_replies : (reply c a s).replies = s.replies ++ [⟨c, a⟩] := rfl

@[simp] theorem replyReturned_engine : (replyReturned c s).engine = s.engine := by
  unfold replyReturned; split <;> rfl
@[simp] theorem replyReturned_others : (replyReturned c s).others = s.others := by
  unfold replyReturned; split <;> rfl
@[simp] theorem replyReturned_inputs : (replyReturned c s).inputs = s.inputs := by
  unfold replyReturned; split <;> rfl
@[simp] theorem replyReturned_oracle : (replyReturned c s).oracle = s.oracle := by
  unfold replyReturned; split <;> rfl
@[simp] theorem replyReturned_bench : (replyReturned c s).bench = s.bench := by
  unfold replyReturned; split <;> rfl
@[simp] theorem replyReturned_turns : (replyReturned c s).turns = s.turns := by
  unfold replyReturned; split <;> rfl
@[simp] theorem replyReturned_nextOrdinal : (replyReturned c s).nextOrdinal = s.nextOrdinal := by
  unfold replyReturned; split <;> rfl
@[simp] theorem replyReturned_returned : (replyReturned c s).returned = s.returned := by
  unfold replyReturned; split <;> rfl
@[simp] theorem replyReturned_replies :
    (replyReturned c s).replies = s.replies ++ s.returned.toList.map fun st => ⟨c, .status st⟩ := by
  unfold replyReturned; split <;> simp [*]

/-- A status is the whole of what a caller is given back, and its reply is all that changes. -/
theorem replyReturned_eq :
    replyReturned c s = { s with replies := s.replies ++ s.returned.toList.map fun st => ⟨c, .status st⟩ } := by
  cases s
  unfold replyReturned
  split <;> simp_all [reply]

@[simp] theorem setPending_lines : (setPending ps s).engine.lines = s.engine.lines := rfl
@[simp] theorem setPending_cursor : (setPending ps s).engine.cursor = s.engine.cursor := rfl
@[simp] theorem setPending_life : (setPending ps s).engine.life = s.engine.life := rfl
@[simp] theorem setPending_pending : (setPending ps s).engine.pending = ps := rfl
@[simp] theorem setPending_label : (setPending ps s).engine.label = s.engine.label := rfl
@[simp] theorem setPending_trace : (setPending ps s).engine.trace = s.engine.trace := rfl
@[simp] theorem setPending_fault : (setPending ps s).engine.fault = s.engine.fault := rfl
@[simp] theorem setPending_others : (setPending ps s).others = s.others := rfl
@[simp] theorem setPending_inputs : (setPending ps s).inputs = s.inputs := rfl
@[simp] theorem setPending_oracle : (setPending ps s).oracle = s.oracle := rfl
@[simp] theorem setPending_nextOrdinal : (setPending ps s).nextOrdinal = s.nextOrdinal := rfl
@[simp] theorem setPending_bench : (setPending ps s).bench = s.bench := rfl
@[simp] theorem setPending_turns : (setPending ps s).turns = s.turns := rfl
@[simp] theorem setPending_returned : (setPending ps s).returned = s.returned := rfl
@[simp] theorem setPending_replies : (setPending ps s).replies = s.replies := rfl

end Whole

end Sys2Proof.Machine
end

