-- ==== Sys2Proof/Laws/Ops.lean ====
section
/-! SUPPORT. What a run of actions can do: how lists of actions compose, the run on reliable lines, the run to its first failed
write, and what no run changes. -/

namespace Sys2Proof.Machine

/-! ## Composition -/

/-- The run goes on after `as` only when `as` came to its end. -/
theorem runActions_append (as bs : List Action) (e : Engine) (o : Oracle) :
    runActions (as ++ bs) e o =
      match (runActions as e o).ending with
      | .done => runActions bs (runActions as e o).engine (runActions as e o).oracle
      | .raised _ => runActions as e o
      | .notOutput => runActions as e o := by
  induction as generalizing e o with
  | nil => simp [runActions]
  | cons a as ih =>
    simp only [List.cons_append, runActions]
    cases h : (doAction a e o).ending <;> simp [ih, h]

theorem runActions_append_done {as bs : List Action} {e : Engine} {o : Oracle}
    (h : (runActions as e o).ending = .done) :
    runActions (as ++ bs) e o = runActions bs (runActions as e o).engine (runActions as e o).oracle := by
  rw [runActions_append, h]

/-! ## The collaborator's answers -/

@[simp] theorem reliable_zero (o : Oracle) : reliable 0 o = true := rfl
@[simp] theorem skipAnswers_zero (o : Oracle) : skipAnswers 0 o = o := rfl

theorem reliable_succ (n : Nat) (o : Oracle) :
    reliable (n + 1) o = true ↔ nextAnswer o = true ∧ reliable n (restAnswers o) = true := by
  simp [reliable]

theorem reliable_add (m n : Nat) (o : Oracle) :
    reliable (m + n) o = true ↔ reliable m o = true ∧ reliable n (skipAnswers m o) = true := by
  induction m generalizing o with
  | zero => simp
  | succ m ih => rw [Nat.succ_add, reliable_succ, reliable_succ, ih, and_assoc]; rfl

theorem skipAnswers_add (m n : Nat) (o : Oracle) : skipAnswers (m + n) o = skipAnswers n (skipAnswers m o) := by
  induction m generalizing o with
  | zero => simp
  | succ m ih => rw [Nat.succ_add]; exact ih _

theorem restAnswers_skipAnswers (k : Nat) (o : Oracle) : restAnswers (skipAnswers k o) = skipAnswers (k + 1) o := by
  rw [skipAnswers_add]; rfl

theorem failsAt_iff (k : Nat) (o : Oracle) :
    failsAt k o = true ↔ reliable k o = true ∧ nextAnswer (skipAnswers k o) = false := by
  simp [failsAt]

/-- A failure at `m + k` is, after `m` answers, a failure at `k`. -/
theorem failsAt_add (m k : Nat) (o : Oracle) :
    failsAt (m + k) o = true ↔ reliable m o = true ∧ failsAt k (skipAnswers m o) = true := by
  rw [failsAt_iff, failsAt_iff, reliable_add, skipAnswers_add, and_assoc]

/-! ## Runs on reliable lines -/

/-- What an action that succeeds does to the engine. -/
def applyAction (a : Action) (e : Engine) : Engine :=
  match a with
  | .acquire r => onLine r lineAcquired e
  | .configure r d => onLine r (lineConfigured d) (logEvent (.cfg r d true) e)
  | .write r v => onLine r (lineDriven v) (logEvent (.wr r v true) e)
  | .delay t => logEvent (.dly t) e
  | .moveCursor m => { e with cursor := cursorAfter m e.cursor }

/-- What actions that all succeed do to the engine. -/
def applyActions (as : List Action) (e : Engine) : Engine := as.foldl (fun e a => applyAction a e) e

/-- How many answers an action asks for. -/
def actionCalls (a : Action) : Nat :=
  match a with
  | .acquire _ | .configure _ _ | .write _ _ => 1
  | .delay _ | .moveCursor _ => 0

/-- How many answers actions ask for. -/
def callsOf : List Action → Nat
  | [] => 0
  | a :: as => actionCalls a + callsOf as

/-- Every write goes to a line that is an output when its turn comes. -/
def Writable : List Action → Engine → Prop
  | [], _ => True
  | a :: as, e =>
    (match a with
      | .write r _ => (lineOf e.lines r).dir = .output
      | .acquire _ | .configure _ _ | .delay _ | .moveCursor _ => True) ∧ Writable as (applyAction a e)

@[simp] theorem applyActions_nil (e : Engine) : applyActions [] e = e := rfl
@[simp] theorem applyActions_cons (a : Action) (as : List Action) (e : Engine) :
    applyActions (a :: as) e = applyActions as (applyAction a e) := rfl
@[simp] theorem callsOf_nil : callsOf [] = 0 := rfl
@[simp] theorem callsOf_cons (a : Action) (as : List Action) : callsOf (a :: as) = actionCalls a + callsOf as := rfl

theorem applyActions_append (as bs : List Action) (e : Engine) :
    applyActions (as ++ bs) e = applyActions bs (applyActions as e) := by
  simp [applyActions]

theorem callsOf_append (as bs : List Action) : callsOf (as ++ bs) = callsOf as + callsOf bs := by
  induction as with
  | nil => simp
  | cons a as ih => simp [ih, Nat.add_assoc]

theorem writable_append (as bs : List Action) (e : Engine) :
    Writable (as ++ bs) e ↔ Writable as e ∧ Writable bs (applyActions as e) := by
  induction as generalizing e with
  | nil => simp [Writable]
  | cons a as ih => simp [Writable, ih, and_assoc]

/-- One action on a reliable answer. -/
theorem doAction_reliable {a : Action} {as : List Action} {e : Engine} {o : Oracle} (hw : Writable (a :: as) e)
    (ho : reliable (actionCalls a) o = true) :
    doAction a e o = ⟨applyAction a e, skipAnswers (actionCalls a) o, .done⟩ := by
  cases a with
  | acquire r =>
    have : nextAnswer o = true := by simpa [actionCalls, reliable] using ho
    simp [doAction, acquireLine, this, applyAction, actionCalls, skipAnswers]
  | configure r d =>
    have : nextAnswer o = true := by simpa [actionCalls, reliable] using ho
    simp [doAction, configureLine, this, applyAction, actionCalls, skipAnswers]
  | write r v =>
    have : nextAnswer o = true := by simpa [actionCalls, reliable] using ho
    simp [doAction, writeLine, this, hw.1, applyAction, actionCalls, skipAnswers]
  | delay t => rfl
  | moveCursor m => rfl

/-- Actions whose writes go to outputs, on reliable lines, all happen. -/
theorem runActions_reliable {as : List Action} {e : Engine} {o : Oracle} (hw : Writable as e)
    (ho : reliable (callsOf as) o = true) :
    runActions as e o = ⟨applyActions as e, skipAnswers (callsOf as) o, .done⟩ := by
  induction as generalizing e o with
  | nil => rfl
  | cons a as ih =>
    rw [callsOf_cons, reliable_add] at ho
    simp only [runActions, doAction_reliable hw ho.1, callsOf_cons, skipAnswers_add, applyActions_cons]
    exact ih hw.2 ho.2

/-- A reliable start of a list of actions. -/
theorem runActions_reliable_append {as bs : List Action} {e : Engine} {o : Oracle} (hw : Writable as e)
    (ho : reliable (callsOf as) o = true) :
    runActions (as ++ bs) e o = runActions bs (applyActions as e) (skipAnswers (callsOf as) o) := by
  have h := runActions_reliable hw ho
  rw [runActions_append_done (by rw [h]), h]

/-- The engine at the first failed write: the actions before it happened, the failed event is logged, nothing follows. -/
theorem runActions_failed_write {as bs : List Action} {r : Role} {v : Bit} {e : Engine} {o : Oracle}
    (hw : Writable (as ++ .write r v :: bs) e) (ho : failsAt (callsOf as) o = true) :
    runActions (as ++ .write r v :: bs) e o
      = ⟨logEvent (.wr r v false) (applyActions as e), skipAnswers (callsOf as + 1) o, .raised .eIo⟩ := by
  rw [failsAt_iff] at ho
  rw [writable_append] at hw
  rw [runActions_reliable_append hw.1 ho.1]
  simp only [runActions, doAction, writeLine, hw.2.1, ho.2, if_true, restAnswers_skipAnswers]
  rfl

/-- The engine at the first failed acquisition: no event. -/
theorem runActions_failed_acquire {as bs : List Action} {r : Role} {e : Engine} {o : Oracle}
    (hw : Writable as e) (ho : failsAt (callsOf as) o = true) :
    runActions (as ++ .acquire r :: bs) e o
      = ⟨applyActions as e, skipAnswers (callsOf as + 1) o, .raised .eHwCfg⟩ := by
  rw [failsAt_iff] at ho
  rw [runActions_reliable_append hw ho.1]
  simp only [runActions, doAction, acquireLine, ho.2, restAnswers_skipAnswers]
  rfl

/-- The engine at the first failed configuration. -/
theorem runActions_failed_configure {as bs : List Action} {r : Role} {d : Direction} {e : Engine} {o : Oracle}
    (hw : Writable as e) (ho : failsAt (callsOf as) o = true) :
    runActions (as ++ .configure r d :: bs) e o
      = ⟨logEvent (.cfg r d false) (applyActions as e), skipAnswers (callsOf as + 1) o, .raised .eHwCfg⟩ := by
  rw [failsAt_iff] at ho
  rw [runActions_reliable_append hw ho.1]
  simp only [runActions, doAction, configureLine, ho.2, restAnswers_skipAnswers]
  rfl

/-- Either a call fails, at a known place, or the answers are reliable. -/
theorem reliable_or_failsAt (n : Nat) (o : Oracle) : reliable n o = true ∨ ∃ k < n, failsAt k o = true := by
  induction n generalizing o with
  | zero => exact .inl rfl
  | succ n ih =>
    cases h : nextAnswer o with
    | false => exact .inr ⟨0, Nat.succ_pos _, by simp [failsAt_iff, h]⟩
    | true =>
      rcases ih (restAnswers o) with hr | ⟨k, hk, hf⟩
      · exact .inl ((reliable_succ _ _).2 ⟨h, hr⟩)
      · refine .inr ⟨k + 1, Nat.succ_lt_succ hk, ?_⟩
        rw [Nat.add_comm, failsAt_add]
        exact ⟨by simp [reliable, h], hf⟩

/-! ## What no run changes -/

/-- The fields no action writes. -/
theorem doAction_frame (a : Action) (e : Engine) (o : Oracle) :
    (doAction a e o).engine.pending = e.pending ∧ (doAction a e o).engine.label = e.label ∧
      (doAction a e o).engine.life = e.life := by
  cases a <;> simp only [doAction, acquireLine, configureLine, writeLine] <;> (try split) <;> (try split) <;> simp

/-- A property of engines that every single action keeps holds after a run. -/
theorem runActions_induct {P : Engine → Prop} {as : List Action}
    (h : ∀ a ∈ as, ∀ e o, P e → P (doAction a e o).engine) (e : Engine) (o : Oracle) (he : P e) :
    P (runActions as e o).engine := by
  induction as generalizing e o with
  | nil => exact he
  | cons a as ih =>
    have h1 := h a (List.mem_cons_self ..) e o he
    simp only [runActions]
    split
    · exact ih (fun b hb => h b (List.mem_cons_of_mem _ hb)) _ _ h1
    · exact h1
    · exact h1

theorem runActions_frame (as : List Action) (e : Engine) (o : Oracle) :
    (runActions as e o).engine.pending = e.pending ∧ (runActions as e o).engine.label = e.label ∧
      (runActions as e o).engine.life = e.life :=
  runActions_induct (P := fun e' => e'.pending = e.pending ∧ e'.label = e.label ∧ e'.life = e.life)
    (fun a _ e' o h => by
      obtain ⟨h1, h2, h3⟩ := doAction_frame a e' o
      exact ⟨h1.trans h.1, h2.trans h.2.1, h3.trans h.2.2⟩)
    e o ⟨rfl, rfl, rfl⟩

@[simp] theorem runActions_pending (as : List Action) (e : Engine) (o : Oracle) :
    (runActions as e o).engine.pending = e.pending := (runActions_frame as e o).1
@[simp] theorem runActions_label (as : List Action) (e : Engine) (o : Oracle) :
    (runActions as e o).engine.label = e.label := (runActions_frame as e o).2.1
@[simp] theorem runActions_life (as : List Action) (e : Engine) (o : Oracle) :
    (runActions as e o).engine.life = e.life := (runActions_frame as e o).2.2

theorem doAction_stream (a : Action) (e : Engine) (o : Oracle) : (doAction a e o).oracle.stream = o.stream := by
  have h : (restAnswers o).stream = o.stream := by unfold restAnswers; split <;> rfl
  cases a <;> simp only [doAction, acquireLine, configureLine, writeLine] <;> (try split) <;> (try split) <;> first | exact h | rfl

/-- An engine's answers stay those of its own stream. -/
@[simp] theorem runActions_stream (as : List Action) (e : Engine) (o : Oracle) :
    (runActions as e o).oracle.stream = o.stream := by
  induction as generalizing e o with
  | nil => rfl
  | cons a as ih =>
    simp only [runActions]
    split
    · exact (ih ..).trans (doAction_stream a e o)
    all_goals exact doAction_stream a e o

/-- Only a cursor action writes the cursor. -/
theorem runActions_cursor {as : List Action} (h : ∀ m, .moveCursor m ∉ as) (e : Engine) (o : Oracle) :
    (runActions as e o).engine.cursor = e.cursor :=
  runActions_induct (P := fun e' => e'.cursor = e.cursor)
    (fun a ha e' o he => by
      cases a with
      | moveCursor m => exact absurd ha (h m)
      | acquire r => simp only [doAction, acquireLine]; split <;> simp [he]
      | configure r d => simp only [doAction, configureLine]; split <;> simp [he]
      | write r v => simp only [doAction, writeLine]; split <;> (try split) <;> simp [he]
      | delay t => simp [doAction, he])
    e o rfl

/-- Only an acquisition writes `acq`, and only a configuration writes `dir`. -/
theorem runActions_setup {as : List Action} (ha : ∀ r, .acquire r ∉ as) (hc : ∀ r d, .configure r d ∉ as) (e : Engine)
    (o : Oracle) (q : Role) :
    (lineOf (runActions as e o).engine.lines q).acq = (lineOf e.lines q).acq ∧
      (lineOf (runActions as e o).engine.lines q).dir = (lineOf e.lines q).dir :=
  runActions_induct
    (P := fun e' => (lineOf e'.lines q).acq = (lineOf e.lines q).acq ∧ (lineOf e'.lines q).dir = (lineOf e.lines q).dir)
    (fun a hm e' o he => by
      cases a with
      | acquire r => exact absurd hm (ha r)
      | configure r d => exact absurd hm (hc r d)
      | write r v =>
        simp only [doAction, writeLine]
        split
        · split
          · simp only [onLine_lines, logEvent_lines, lineOf_setLine]
            split
            · next h => subst h; simpa using he
            · exact he
          · simpa using he
        · simpa using he
      | delay t => simpa [doAction] using he
      | moveCursor m => exact he)
    e o ⟨rfl, rfl⟩

/-! ## The trace -/

/-- How a run's ending and its events belong together: a failed call is the last event, and only an error has one. -/
def TraceEnds (evs : List Event) (ending : Ending) : Prop :=
  match ending with
  | .done | .notOutput => NoFailedCall evs
  | .raised .eIo => ∃ before ev, evs = before ++ [ev] ∧ NoFailedCall before ∧ callFailed ev = true
  | .raised .eHwCfg => NoFailedCall evs ∨ ∃ before ev, evs = before ++ [ev] ∧ NoFailedCall before ∧ callFailed ev = true
  | .raised _ => False

@[simp] theorem noFailedCall_nil : NoFailedCall [] := by simp [NoFailedCall]

theorem noFailedCall_append (xs ys : List Event) : NoFailedCall (xs ++ ys) ↔ NoFailedCall xs ∧ NoFailedCall ys := by
  simp only [NoFailedCall, List.mem_append]
  exact ⟨fun h => ⟨fun ev he => h ev (.inl he), fun ev he => h ev (.inr he)⟩, fun h ev he => he.elim (h.1 ev) (h.2 ev)⟩

theorem noFailedCall_single (ev : Event) : NoFailedCall [ev] ↔ callFailed ev = false := by simp [NoFailedCall]

/-- Events without a failed call, in front. -/
theorem TraceEnds.cons_before {xs ys : List Event} {ending : Ending} (hx : NoFailedCall xs) (hy : TraceEnds ys ending) :
    TraceEnds (xs ++ ys) ending := by
  have tail : (∃ before ev, ys = before ++ [ev] ∧ NoFailedCall before ∧ callFailed ev = true) →
      ∃ before ev, xs ++ ys = before ++ [ev] ∧ NoFailedCall before ∧ callFailed ev = true := by
    rintro ⟨b, ev, rfl, hb, he⟩
    exact ⟨xs ++ b, ev, (List.append_assoc ..).symm, (noFailedCall_append _ _).2 ⟨hx, hb⟩, he⟩
  match ending, hy with
  | .done, hy => exact (noFailedCall_append _ _).2 ⟨hx, hy⟩
  | .notOutput, hy => exact (noFailedCall_append _ _).2 ⟨hx, hy⟩
  | .raised .eIo, hy => exact tail hy
  | .raised .eHwCfg, .inl hy => exact .inl ((noFailedCall_append _ _).2 ⟨hx, hy⟩)
  | .raised .eHwCfg, .inr hy => exact .inr (tail hy)

theorem doAction_trace (a : Action) (e : Engine) (o : Oracle) :
    ∃ evs, (doAction a e o).engine.trace = e.trace ++ evs ∧ TraceEnds evs (doAction a e o).ending := by
  cases a with
  | acquire r =>
    refine ⟨[], ?_⟩
    simp only [doAction, acquireLine]
    split <;> simp [TraceEnds]
  | configure r d =>
    refine ⟨[.cfg r d (nextAnswer o)], ?_⟩
    simp only [doAction, configureLine]
    split
    · next h => simp [TraceEnds, noFailedCall_single, callFailed, h]
    · next h => exact ⟨rfl, .inr ⟨[], _, rfl, noFailedCall_nil, by simp [callFailed, h]⟩⟩
  | write r v =>
    simp only [doAction, writeLine]
    split
    · refine ⟨[.wr r v (nextAnswer o)], ?_⟩
      split
      · next h => simp [TraceEnds, noFailedCall_single, callFailed, h]
      · next h => exact ⟨rfl, [], _, rfl, noFailedCall_nil, by simp [callFailed, h]⟩
    · exact ⟨[], by simp, noFailedCall_nil⟩
  | delay t => exact ⟨[.dly t], rfl, by simp [TraceEnds, doAction, noFailedCall_single, callFailed]⟩
  | moveCursor m => exact ⟨[], by simp [doAction], noFailedCall_nil⟩

/-- A run only appends to the trace, and its events end as its ending says. -/
theorem runActions_trace (as : List Action) (e : Engine) (o : Oracle) :
    ∃ evs, (runActions as e o).engine.trace = e.trace ++ evs ∧ TraceEnds evs (runActions as e o).ending := by
  induction as generalizing e o with
  | nil => exact ⟨[], by simp [runActions], noFailedCall_nil⟩
  | cons a as ih =>
    obtain ⟨evs, ht, he⟩ := doAction_trace a e o
    simp only [runActions]
    split
    · next hd =>
      obtain ⟨more, ht', he'⟩ := ih (doAction a e o).engine (doAction a e o).oracle
      rw [hd] at he
      exact ⟨evs ++ more, by rw [ht', ht, List.append_assoc], he'.cons_before he⟩
    · exact ⟨evs, ht, he⟩
    · exact ⟨evs, ht, he⟩

/-- A run ends with OK, E_IO, E_HWCFG or at a line that is no output. -/
theorem runActions_ending (as : List Action) (e : Engine) (o : Oracle) :
    (runActions as e o).ending = .done ∨ (runActions as e o).ending = .raised .eIo ∨
      (runActions as e o).ending = .raised .eHwCfg ∨ (runActions as e o).ending = .notOutput := by
  obtain ⟨evs, -, h⟩ := runActions_trace as e o
  generalize (runActions as e o).ending = x at h
  match x, h with
  | .done, _ => exact .inl rfl
  | .notOutput, _ => exact .inr (.inr (.inr rfl))
  | .raised .eIo, _ => exact .inr (.inl rfl)
  | .raised .eHwCfg, _ => exact .inr (.inr (.inl rfl))

/-! ## Levels, directions and the trace -/

@[simp] theorem replay_nil (ls : LineSet) : replay ls [] = ls := rfl
theorem replay_append (ls : LineSet) (xs ys : List Event) : replay ls (xs ++ ys) = replay (replay ls xs) ys := by
  simp [replay]

/-- Two line sets agree on a role's direction and level. -/
def SameWires (a b : LineSet) : Prop :=
  ∀ r, (lineOf a r).dir = (lineOf b r).dir ∧ (lineOf a r).lvl = (lineOf b r).lvl

theorem tracked_iff (e : Engine) : Tracked e ↔ SameWires e.lines (replay LineSet.fresh e.trace) := Iff.rfl

theorem SameWires.refl (a : LineSet) : SameWires a a := fun _ => ⟨rfl, rfl⟩

/-- An event changes agreeing lines alike. -/
theorem SameWires.replayEvent {a b : LineSet} (h : SameWires a b) (ev : Event) :
    SameWires (replayEvent a ev) (replayEvent b ev) := by
  intro q
  cases ev with
  | dly t => exact h q
  | wr r v ok =>
    cases ok with
    | false => exact h q
    | true =>
      simp only [Machine.replayEvent, lineOf_setLine]
      split
      · exact ⟨(h r).1, rfl⟩
      · exact h q
  | cfg r d ok =>
    cases ok with
    | false => exact h q
    | true =>
      simp only [Machine.replayEvent, lineOf_setLine]
      split
      · cases d <;> simp
      · exact h q

/-- What an action does to directions and levels is what its events say. -/
theorem doAction_wires (a : Action) (e : Engine) (o : Oracle) :
    ∃ evs, (doAction a e o).engine.trace = e.trace ++ evs ∧
      SameWires (doAction a e o).engine.lines (replay e.lines evs) := by
  cases a with
  | acquire r =>
    refine ⟨[], ?_⟩
    simp only [doAction, acquireLine]
    split
    · refine ⟨by simp, fun q => ?_⟩
      simp only [onLine_lines, lineOf_setLine, replay_nil]
      split
      · next h => subst h; simp
      · exact ⟨rfl, rfl⟩
    · exact ⟨by simp, .refl _⟩
  | configure r d =>
    refine ⟨[.cfg r d (nextAnswer o)], ?_⟩
    simp only [doAction, configureLine]
    split
    · next h => rw [h]; exact ⟨rfl, .refl _⟩
    · next h => simp only [Bool.not_eq_true] at h; rw [h]; exact ⟨rfl, .refl _⟩
  | write r v =>
    simp only [doAction, writeLine]
    split
    · refine ⟨[.wr r v (nextAnswer o)], ?_⟩
      split
      · next h => rw [h]; exact ⟨rfl, .refl _⟩
      · next h => simp only [Bool.not_eq_true] at h; rw [h]; exact ⟨rfl, .refl _⟩
    · exact ⟨[], by simp, .refl _⟩
  | delay t => exact ⟨[.dly t], rfl, .refl _⟩
  | moveCursor m => exact ⟨[], by simp [doAction], .refl _⟩

/-- An action keeps the levels and directions those of the trace. -/
theorem doAction_tracked (a : Action) (e : Engine) (o : Oracle) (h : Tracked e) : Tracked (doAction a e o).engine := by
  obtain ⟨evs, ht, hw⟩ := doAction_wires a e o
  intro q
  rw [ht, replay_append]
  have key : SameWires (replay e.lines evs) (replay (replay LineSet.fresh e.trace) evs) := by
    clear ht hw
    have h' : SameWires e.lines (replay LineSet.fresh e.trace) := h
    generalize replay LineSet.fresh e.trace = b at h'
    generalize e.lines = c at h'
    induction evs generalizing b c with
    | nil => exact h'
    | cons ev evs ih => exact ih _ _ (h'.replayEvent ev)
  exact ⟨(hw q).1.trans (key q).1, (hw q).2.trans (key q).2⟩

/-- A run keeps the levels and directions those of the trace. -/
theorem runActions_tracked (as : List Action) (e : Engine) (o : Oracle) (h : Tracked e) :
    Tracked (runActions as e o).engine :=
  runActions_induct (fun a _ e o => doAction_tracked a e o) e o h

/-! ## Admission -/

/-- An allowed request runs its body (44_dispatch.md R84). -/
theorem admitted_allowed {d : Request} {f : Life → Ending → Life} {body : List Action} {s : State}
    (h : lifeAllows s.engine.life d = true) :
    admitted d f body s = finish f (runActions body s.engine s.oracle) s := if_pos h

/-- A request that is not allowed is a violation (44_dispatch.md R85). -/
theorem admitted_forbidden {d : Request} {f : Life → Ending → Life} {body : List Action} {s : State}
    (h : lifeAllows s.engine.life d = false) : admitted d f body s = lifecycleViolation d s := by
  simp [admitted, h]

end Sys2Proof.Machine
end

