-- ==== Sys2Proof/Laws/Transmission.lean ====
section
/-! SUPPORT. What the transmissions and the operations built from them do on outputs that answer: one lemma per body. -/

namespace Sys2Proof.Machine

/-- The role is one a nibble drives. -/
theorem dir_lineDriven (ls : LineSet) (r q : Role) (v : Bit) :
    (lineOf (setLine r (lineDriven v (lineOf ls r)) ls) q).dir = (lineOf ls q).dir := by
  rw [lineOf_setLine]
  split
  · next h => subst h; rfl
  · rfl

/-- A list of writes, delays and cursor moves is writable when its lines are outputs. -/
theorem writable_of_outputs {as : List Action} (ha : ∀ r, .acquire r ∉ as) (hc : ∀ r d, .configure r d ∉ as) {e : Engine}
    (h : ∀ r v, .write r v ∈ as → (lineOf e.lines r).dir = .output) : Writable as e := by
  induction as generalizing e with
  | nil => trivial
  | cons a as ih =>
    have ha' : ∀ r, .acquire r ∉ as := fun r hr => ha r (List.mem_cons_of_mem _ hr)
    have hc' : ∀ r d, .configure r d ∉ as := fun r d hr => hc r d (List.mem_cons_of_mem _ hr)
    have rest : ∀ r v, .write r v ∈ as → (lineOf e.lines r).dir = .output :=
      fun r v hr => h r v (List.mem_cons_of_mem _ hr)
    cases a with
    | acquire r => exact absurd (List.mem_cons_self ..) (ha r)
    | configure r d => exact absurd (List.mem_cons_self ..) (hc r d)
    | write r v =>
      exact ⟨h r v (List.mem_cons_self ..),
        ih ha' hc' fun q w hq => by simpa [applyAction, dir_lineDriven] using rest q w hq⟩
    | delay t => exact ⟨trivial, ih ha' hc' rest⟩
    | moveCursor m => exact ⟨trivial, ih ha' hc' rest⟩

/-! ## Events of successful actions -/

/-- The events a successful action appends. -/
def actionEvents : Action → List Event
  | .acquire _ => []
  | .configure r d => [.cfg r d true]
  | .write r v => [.wr r v true]
  | .delay t => [.dly t]
  | .moveCursor _ => []

/-- The events successful actions append. -/
def eventsOf (as : List Action) : List Event := as.flatMap actionEvents

theorem applyActions_trace (as : List Action) (e : Engine) : (applyActions as e).trace = e.trace ++ eventsOf as := by
  induction as generalizing e with
  | nil => simp [eventsOf]
  | cons a as ih =>
    rw [applyActions_cons, ih]
    cases a <;> simp [eventsOf, actionEvents, applyAction]

/-- Without acquisitions, the lines after successful actions are those their events give. -/
theorem applyActions_lines {as : List Action} (ha : ∀ r, .acquire r ∉ as) (e : Engine) :
    (applyActions as e).lines = replay e.lines (eventsOf as) := by
  induction as generalizing e with
  | nil => rfl
  | cons a as ih =>
    rw [applyActions_cons, ih fun r hr => ha r (List.mem_cons_of_mem _ hr)]
    cases a with
    | acquire r => exact absurd (List.mem_cons_self ..) (ha r)
    | configure r d => rfl
    | write r v => rfl
    | delay t => rfl
    | moveCursor m => rfl

/-- Successful actions write the trace, the lines and the cursor alone. -/
theorem applyActions_eq {as : List Action} (ha : ∀ r, .acquire r ∉ as) (e : Engine) :
    applyActions as e
      = { e with
          trace := e.trace ++ eventsOf as
          lines := replay e.lines (eventsOf as)
          cursor := (applyActions as e).cursor } := by
  rw [← applyActions_lines ha e, ← applyActions_trace]
  clear ha
  induction as generalizing e with
  | nil => rfl
  | cons a as ih =>
    rw [applyActions_cons]
    exact (ih _).trans (by cases a <;> rfl)

/-- Without a cursor action, successful actions leave the cursor. -/
theorem applyActions_cursor {as : List Action} (h : ∀ m, .moveCursor m ∉ as) (e : Engine) :
    (applyActions as e).cursor = e.cursor := by
  induction as generalizing e with
  | nil => rfl
  | cons a as ih =>
    rw [applyActions_cons, ih fun m hm => h m (List.mem_cons_of_mem _ hm)]
    cases a with
    | moveCursor m => exact absurd (List.mem_cons_self ..) (h m)
    | acquire r => rfl
    | configure r d => rfl
    | write r v => rfl
    | delay t => rfl

/-! ## TxNibble -/

@[simp] theorem callsOf_txNibble (n : Nibble) : callsOf (txNibble n) = 7 := rfl

theorem writable_txNibble (n : Nibble) {e : Engine}
    (h : ∀ r ∈ [Role.en, .d4, .d5, .d6, .d7], (lineOf e.lines r).dir = .output) : Writable (txNibble n) e :=
  writable_of_outputs (by simp [txNibble]) (by simp [txNibble]) fun r v hr => by
    refine h r ?_
    simp only [txNibble, List.mem_cons, Action.write.injEq, reduceCtorEq, List.not_mem_nil, or_false, false_or] at hr
    rcases hr with h | h | h | h | h | h | h <;> simp [h.1]

@[simp] theorem eventsOf_txNibble (n : Nibble) : eventsOf (txNibble n) = nibbleEvents n := rfl

theorem replay_nibbleEvents (n : Nibble) (ls : LineSet) : replay ls (nibbleEvents n) = afterNibble n ls := rfl

theorem applyActions_txNibble (n : Nibble) (e : Engine) :
    applyActions (txNibble n) e
      = { e with trace := e.trace ++ nibbleEvents n, lines := afterNibble n e.lines } := by
  rw [applyActions_eq (by simp [txNibble]), applyActions_cursor (by simp [txNibble]), eventsOf_txNibble, replay_nibbleEvents]

/-! ## TxCommand and TxChar -/

@[simp] theorem callsOf_txByte (rs : Bit) (b : Byte) : callsOf (txByte rs b) = 16 := by
  simp [txByte, callsOf_append, actionCalls]

theorem writable_txByte (rs : Bit) (b : Byte) {e : Engine} (h : Outputs e.lines) : Writable (txByte rs b) e :=
  writable_of_outputs (by simp [txByte, txNibble]) (by simp [txByte, txNibble]) fun r _ _ => h r

@[simp] theorem eventsOf_txByte (rs : Bit) (b : Byte) : eventsOf (txByte rs b) = byteEvents rs b := rfl

theorem replay_byteEvents (rs : Bit) (b : Byte) (ls : LineSet) : replay ls (byteEvents rs b) = afterByte rs b ls := rfl

theorem applyActions_txByte (rs : Bit) (b : Byte) (e : Engine) :
    applyActions (txByte rs b) e
      = { e with trace := e.trace ++ byteEvents rs b, lines := afterByte rs b e.lines } := by
  rw [applyActions_eq (by simp [txByte, txNibble]), applyActions_cursor (by simp [txByte, txNibble]), eventsOf_txByte,
    replay_byteEvents]

theorem outputs_afterByte {ls : LineSet} (rs : Bit) (b : Byte) (h : Outputs ls) : Outputs (afterByte rs b ls) := by
  intro r
  have := h r
  cases r <;> exact this

theorem outputs_afterByte_iff (ls : LineSet) (rs : Bit) (b : Byte) : Outputs (afterByte rs b ls) ↔ Outputs ls := by
  refine ⟨fun h r => ?_, outputs_afterByte rs b⟩
  have := h r
  cases r <;> exact this

/-- A byte on outputs that answer, in front of more actions. -/
theorem runActions_txByte (rs : Bit) (b : Byte) (more : List Action) {e : Engine} {o : Oracle} (h : Outputs e.lines)
    (ho : reliable 16 o = true) :
    runActions (txByte rs b ++ more) e o
      = runActions more { e with trace := e.trace ++ byteEvents rs b, lines := afterByte rs b e.lines }
          (skipAnswers 16 o) := by
  rw [runActions_reliable_append (writable_txByte rs b h) (by simpa using ho), applyActions_txByte]
  rfl

/-- Lists of calls, cut at the failing one. -/
theorem cutAt_append (k : Nat) (xs ys : List Event) :
    cutAt k (xs ++ ys) = if k < callCount xs then cutAt k xs else xs ++ cutAt (k - callCount xs) ys := by
  induction xs generalizing k with
  | nil => simp [callCount]
  | cons x xs ih =>
    cases x with
    | dly t =>
      simp only [List.cons_append, cutAt, callCount, ih]
      split <;> simp [*]
    | wr r v ok =>
      cases k with
      | zero => simp [cutAt, callCount]
      | succ k =>
        simp only [List.cons_append, cutAt, callCount, ih, Nat.succ_lt_succ_iff, Nat.succ_sub_succ]
        split <;> simp [*]
    | cfg r d ok =>
      cases k with
      | zero => simp [cutAt, callCount]
      | succ k =>
        simp only [List.cons_append, cutAt, callCount, ih, Nat.succ_lt_succ_iff, Nat.succ_sub_succ]
        split <;> simp [*]

@[simp] theorem callCount_byteEvents (rs : Bit) (b : Byte) : callCount (byteEvents rs b) = 16 := rfl
@[simp] theorem callCount_nibbleEvents (n : Nibble) : callCount (nibbleEvents n) = 7 := rfl

/-- Writes, delays and cursor moves on outputs, the `k`-th write failing: the events up to it, the levels those drove, E_IO. -/
theorem runActions_failsAt {as : List Action} (ha : ∀ r, .acquire r ∉ as) (hc : ∀ r d, .configure r d ∉ as) {e : Engine}
    {o : Oracle} (hw : Writable as e) {k : Nat} (hk : k < callsOf as) (ho : failsAt k o = true) :
    ∃ c, runActions as e o
        = ⟨{ e with trace := e.trace ++ cutAt k (eventsOf as), lines := replay e.lines (cutAt k (eventsOf as)), cursor := c },
            skipAnswers (k + 1) o, .raised .eIo⟩
      ∧ ((∀ m, .moveCursor m ∉ as) → c = e.cursor) := by
  induction as generalizing e o k with
  | nil => simp at hk
  | cons a as ih =>
    have ha' : ∀ r, .acquire r ∉ as := fun r hr => ha r (List.mem_cons_of_mem _ hr)
    have hc' : ∀ r d, .configure r d ∉ as := fun r d hr => hc r d (List.mem_cons_of_mem _ hr)
    cases a with
    | acquire r => exact absurd (List.mem_cons_self ..) (ha r)
    | configure r d => exact absurd (List.mem_cons_self ..) (hc r d)
    | delay t =>
      obtain ⟨c, h, hm⟩ := ih ha' hc' hw.2 (by simpa [actionCalls] using hk) ho
      refine ⟨c, ?_, fun hm' => hm fun m hmm => hm' m (List.mem_cons_of_mem _ hmm)⟩
      simp only [runActions, doAction]
      exact h.trans (by simp [applyAction, eventsOf, actionEvents, cutAt, logEvent, replay, replayEvent])
    | moveCursor m =>
      obtain ⟨c, h, hm⟩ := ih ha' hc' hw.2 (by simpa [actionCalls] using hk) ho
      exact ⟨c, h, fun hm' => absurd (List.mem_cons_self ..) (hm' m)⟩
    | write r v =>
      cases k with
      | zero =>
        have hn : nextAnswer o = false := by simpa [failsAt] using ho
        exact ⟨e.cursor, by simp [runActions, doAction, writeLine, hw.1, hn, eventsOf, actionEvents, cutAt, logEvent, replay,
          replayEvent, skipAnswers], fun _ => rfl⟩
      | succ k =>
        rw [Nat.add_comm k 1, failsAt_add] at ho
        have hn : nextAnswer o = true := by simpa [reliable] using ho.1
        obtain ⟨c, h, hm⟩ := ih (o := restAnswers o) ha' hc' hw.2
          (by simp only [callsOf_cons, actionCalls] at hk; omega) ho.2
        refine ⟨c, ?_, fun hm' => hm fun m hmm => hm' m (List.mem_cons_of_mem _ hmm)⟩
        simp only [runActions, doAction, writeLine, hw.1, hn, if_true]
        exact h.trans (by simp [applyAction, eventsOf, actionEvents, cutAt, logEvent, replay, replayEvent, onLine, skipAnswers])

end Sys2Proof.Machine
end

