-- ==== Sys2Proof/Laws/Operations.lean ====
section
/-! SUPPORT. What the bodies of the operations do: runs of bytes with a cursor move after each, the loop of setCursor, ClearBody
and INIT. -/

namespace Sys2Proof.Machine

/-! ## One byte -/

/-- A byte whose `k`-th write fails: what would follow never happens. -/
theorem runActions_txByte_failed (rs : Bit) (b : Byte) (more : List Action) {e : Engine} {o : Oracle} (h : Outputs e.lines)
    {k : Nat} (hk : k < 16) (ho : failsAt k o = true) :
    runActions (txByte rs b ++ more) e o
      = ⟨{ e with trace := e.trace ++ cutAt k (byteEvents rs b), lines := replay e.lines (cutAt k (byteEvents rs b)) },
          skipAnswers (k + 1) o, .raised .eIo⟩ := by
  obtain ⟨c, hr, hc⟩ := runActions_failsAt (as := txByte rs b) (by simp [txByte, txNibble]) (by simp [txByte, txNibble])
    (writable_txByte rs b h) (by simpa using hk) ho
  rw [runActions_append, hr, hc (by simp [txByte, txNibble]), eventsOf_txByte]

/-! ## Bytes with a cursor move after each: text, and the loop of setCursor -/

/-- Each byte, and a cursor move after it. -/
def bytesBody (rs : Bit) (m : CursorMove) (bs : List Byte) : List Action :=
  bs.flatMap fun b => txByte rs b ++ [.moveCursor m]

theorem textBody_eq (p : List Byte) : textBody p = bytesBody true .advance (p.take 80) := rfl

theorem bytesBody_cons (rs : Bit) (m : CursorMove) (b : Byte) (bs : List Byte) :
    bytesBody rs m (b :: bs) = txByte rs b ++ (.moveCursor m :: bytesBody rs m bs) := by
  simp [bytesBody]

/-- On outputs that answer, all bytes are sent and the cursor makes one move for each. -/
theorem runActions_bytesBody (rs : Bit) (m : CursorMove) (bs : List Byte) {e : Engine} {o : Oracle} (h : Outputs e.lines)
    (ho : reliable (16 * bs.length) o = true) :
    runActions (bytesBody rs m bs) e o
      = ⟨{ e with
            trace := e.trace ++ bs.flatMap (byteEvents rs)
            lines := bs.foldl (fun ls b => afterByte rs b ls) e.lines
            cursor := (cursorAfter m)^[bs.length] e.cursor },
          skipAnswers (16 * bs.length) o, .done⟩ := by
  induction bs generalizing e o with
  | nil => simp [bytesBody, runActions]
  | cons b bs ih =>
    rw [List.length_cons, Nat.mul_succ, Nat.add_comm, reliable_add] at ho
    rw [bytesBody_cons, runActions_txByte rs b _ h ho.1]
    simp only [runActions, doAction]
    rw [ih (outputs_afterByte rs b h) ho.2]
    simp [Nat.mul_succ, Nat.add_comm _ 16, skipAnswers_add]

/-- On outputs, with the `k`-th call failing, the cursor has made a move for each completed byte. -/
theorem runActions_bytesBody_failed (rs : Bit) (m : CursorMove) (bs : List Byte) {e : Engine} {o : Oracle}
    (h : Outputs e.lines) {k : Nat} (hk : k < 16 * bs.length) (ho : failsAt k o = true) :
    runActions (bytesBody rs m bs) e o
      = ⟨{ e with
            trace := e.trace ++ cutAt k (bs.flatMap (byteEvents rs))
            lines := replay e.lines (cutAt k (bs.flatMap (byteEvents rs)))
            cursor := (cursorAfter m)^[k / 16] e.cursor },
          skipAnswers (k + 1) o, .raised .eIo⟩ := by
  induction bs generalizing e o k with
  | nil => simp at hk
  | cons b bs ih =>
    rw [bytesBody_cons, List.flatMap_cons, cutAt_append, callCount_byteEvents]
    by_cases h16 : k < 16
    · rw [runActions_txByte_failed rs b _ h h16 ho, if_pos h16, Nat.div_eq_of_lt h16]
      rfl
    · obtain ⟨j, rfl⟩ : ∃ j, k = 16 + j := ⟨k - 16, by omega⟩
      rw [failsAt_add] at ho
      rw [runActions_txByte rs b _ h ho.1, if_neg h16, Nat.add_sub_cancel_left]
      simp only [runActions, doAction]
      rw [ih (outputs_afterByte rs b h) (by simp only [List.length_cons] at hk; omega) ho.2]
      have hd : (16 + j) / 16 = j / 16 + 1 := by omega
      simp only [replay_append, replay_byteEvents, List.append_assoc, hd, Function.iterate_succ, Function.comp_apply,
        Nat.add_assoc, skipAnswers_add]

theorem iterate_advance (n : Nat) (c : Fin 80) : (cursorAfter .advance)^[n] c = Fin.ofNat 80 (c.val + n) := by
  induction n generalizing c with
  | zero => simp
  | succ n ih =>
    rw [Function.iterate_succ, Function.comp_apply, ih]
    apply Fin.ext
    simp only [cursorAfter, Fin.val_ofNat, Fin.val_add, Fin.val_one]
    omega

theorem iterate_stepRight (n : Nat) (c : Fin 80) : (cursorAfter .stepRight)^[n] c = Fin.ofNat 80 (c.val + n) :=
  iterate_advance n c

theorem iterate_stepLeft (n : Nat) (c : Fin 80) (h : n ≤ c.val) :
    (cursorAfter .stepLeft)^[n] c = Fin.ofNat 80 (c.val - n) := by
  induction n generalizing c with
  | zero => simp
  | succ n ih =>
    have hv : (cursorAfter .stepLeft c).val = c.val - 1 := by
      simp only [cursorAfter, Fin.sub_def, Fin.val_one]
      omega
    rw [Function.iterate_succ, Function.comp_apply, ih _ (by omega), hv]
    apply Fin.ext
    simp only [Fin.val_ofNat]
    congr 1
    omega

/-- The loop of setCursor is the linear distance in single steps towards the target (43_operations.md R78). -/
theorem cursorLoop_eq (c : CommandBytes) (target here : Fin 80) (fuel : Nat)
    (h : (target.val - here.val) + (here.val - target.val) ≤ fuel) :
    cursorLoop c target fuel here
      = if here < target then bytesBody false .stepRight (List.replicate (target.val - here.val) c.cursorShiftRight)
        else bytesBody false .stepLeft (List.replicate (here.val - target.val) c.cursorShiftLeft) := by
  induction fuel generalizing here with
  | zero =>
    have : here.val = target.val := by omega
    simp [cursorLoop, Fin.lt_def, this, bytesBody]
  | succ fuel ih =>
    unfold cursorLoop
    by_cases he : here = target
    · subst he; simp [bytesBody]
    · have hne : here.val ≠ target.val := fun hv => he (Fin.ext hv)
      rw [if_neg he]
      by_cases hlt : here < target
      · have hlt' : here.val < target.val := hlt
        have hv : (cursorAfter .stepRight here).val = here.val + 1 := by
          simp only [cursorAfter, Fin.val_add, Fin.val_one]
          have := target.isLt
          omega
        rw [if_pos hlt, if_pos hlt, ih _ (by omega)]
        obtain ⟨d, hd⟩ : ∃ d, target.val - here.val = d + 1 := ⟨target.val - here.val - 1, by omega⟩
        rw [hd, List.replicate_succ, bytesBody_cons]
        simp only [Fin.lt_def, hv]
        split
        · rw [show target.val - (here.val + 1) = d by omega]; simp [txCommand]
        · rw [show d = 0 by omega, show here.val + 1 - target.val = 0 by omega]; simp [txCommand, bytesBody]
      · have hlt' : ¬ here.val < target.val := hlt
        have hv : (cursorAfter .stepLeft here).val = here.val - 1 := by
          simp only [cursorAfter, Fin.sub_def, Fin.val_one]
          omega
        rw [if_neg hlt, if_neg hlt, ih _ (by omega)]
        obtain ⟨d, hd⟩ : ∃ d, here.val - target.val = d + 1 := ⟨here.val - target.val - 1, by omega⟩
        rw [hd, List.replicate_succ, bytesBody_cons]
        simp only [Fin.lt_def, hv]
        rw [if_neg (by omega), show here.val - 1 - target.val = d by omega]
        simp [txCommand]

theorem cursorBody_eq (c : CommandBytes) (target here : Fin 80) :
    cursorBody c target here
      = if here < target then bytesBody false .stepRight (List.replicate (target.val - here.val) c.cursorShiftRight)
        else bytesBody false .stepLeft (List.replicate (here.val - target.val) c.cursorShiftLeft) :=
  cursorLoop_eq c target here 80 (by have := target.isLt; have := here.isLt; omega)

/-! ## INIT -/

/-- INIT asks for 108 answers: seven acquisitions, seven configurations and 94 writes (42_lifecycle.md R67). -/
theorem callsOf_initBody (c : CommandBytes) : callsOf (initBody c) = 108 := by
  simp [initBody, acquireAll, configureAll, allRoles, powerOnSequence, clearBody, txCommand, callsOf_append, actionCalls]

theorem outputs_afterNibble {ls : LineSet} (n : Nibble) (h : Outputs ls) : Outputs (afterNibble n ls) := by
  intro r
  have := h r
  cases r <;> exact this

/-- Every line acquired and an output at low. -/
def linesConfigured : LineSet :=
  ⟨outputAt false, outputAt false, outputAt false, outputAt false, outputAt false, outputAt false, outputAt false⟩

theorem outputs_linesConfigured : Outputs linesConfigured := by intro r; cases r <;> rfl

/-- Phases 1 and 2 of INIT. -/
theorem applyActions_setUp (e : Engine) :
    applyActions (acquireAll ++ configureAll) e
      = { e with
          trace := e.trace ++ [.cfg .rs .output true, .cfg .rw .output true, .cfg .en .output true, .cfg .d4 .output true,
            .cfg .d5 .output true, .cfg .d6 .output true, .cfg .d7 .output true]
          lines := linesConfigured } := by
  simp [acquireAll, configureAll, allRoles, applyAction, onLine, setLine, lineOf, lineAcquired, lineConfigured, logEvent,
    linesConfigured, outputAt]

theorem eventsOf_append (as bs : List Action) : eventsOf (as ++ bs) = eventsOf as ++ eventsOf bs := by
  simp [eventsOf]

/-- Phase 3 of INIT writes lines that are outputs. -/
theorem writable_powerOnSequence (c : CommandBytes) {e : Engine} (h : Outputs e.lines) : Writable (powerOnSequence c) e :=
  writable_of_outputs (by simp [powerOnSequence, clearBody, txCommand, txByte, txNibble])
    (by simp [powerOnSequence, clearBody, txCommand, txByte, txNibble]) fun r _ _ => h r

theorem writable_setUp (e : Engine) : Writable (acquireAll ++ configureAll) e := by
  simp [Writable, acquireAll, configureAll, allRoles]

theorem writable_initBody (c : CommandBytes) (e : Engine) : Writable (initBody c) e := by
  refine (writable_append _ _ _).2 ⟨writable_setUp e, writable_powerOnSequence c ?_⟩
  rw [applyActions_setUp]
  exact outputs_linesConfigured

/-- INIT's events on success. -/
theorem eventsOf_initBody (c : CommandBytes) : eventsOf (initBody c) = initEvents c := by
  simp only [initBody, powerOnSequence, clearBody, txCommand, eventsOf_append, eventsOf_txNibble, eventsOf_txByte]
  simp [eventsOf, actionEvents, acquireAll, configureAll, allRoles, initEvents, Config.tPowerOn, Config.tInitGap1,
    Config.tInitGap2, Config.tClear, Config.tStable, Config.initNibbleA, Config.initNibbleB]

end Sys2Proof.Machine
end

