-- ==== Sys2Proof/Laws/Exec.lean ====
section
/-! SUPPORT. What an instruction can do, said once: an argument error, a lifecycle violation, or a run of its body; and what the
bodies hold. -/

namespace Sys2Proof.Machine

/-- The request an instruction serves; none for the line calls and the transmissions. -/
def requestOf : Instr → Option Request
  | .init => some .init
  | .deinit => some .deinit
  | .text p => some (.text p)
  | .clear => some .clear
  | .home => some .home
  | .shiftLeft => some .shiftLeft
  | .shiftRight => some .shiftRight
  | .on => some .on
  | .off => some .off
  | .cursor t => some (.cursor t)
  | .configure _ _ | .write _ _ | .txNibble _ _ | .txCommand _ | .txChar _ => none
  | .hdFunctionSet | .hdDisplayOnCursorOn | .hdClear | .hdEntryModeInc | .hdHome | .hdDisplayShiftLeft
  | .hdDisplayShiftRight | .hdCursorShiftLeft | .hdCursorShiftRight | .hdAllOn | .hdAllOff => none

/-- How an instruction changes the lifecycle. -/
def lifeRule : Instr → Life → Ending → Life
  | .init => lifeAfterInit
  | .deinit => lifeAfterDeinit
  | _ => lifeKept

/-- The actions of an instruction, from a given cursor; none where its argument is an error. -/
def bodyOf (i : Instr) (here : Fin 80) : Option (List Action) :=
  let c := Config.commandBytes
  match i with
  | .init => some (initBody c)
  | .deinit => some (clearBody c)
  | .text p => some (textBody p)
  | .clear => some (clearBody c)
  | .home => some (homeBody c)
  | .shiftLeft => some (shiftLeftBody c)
  | .shiftRight => some (shiftRightBody c)
  | .on => some (onBody c)
  | .off => some (offBody c)
  | .cursor t => (cellOfTarget t).map fun cell => cursorBody c cell here
  | .configure r v => (directionOfVal v).map fun d => [.configure r d]
  | .write r v => (levelOfVal v).map fun l => [.write r l]
  | .txNibble _ n => some (txNibble n)
  | .txCommand b => some (txCommand b)
  | .txChar b => some (txChar b)
  | .hdFunctionSet => some (txCommand c.functionSet)
  | .hdDisplayOnCursorOn => some (txCommand c.displayOnCursorOn)
  | .hdClear => some (txCommand c.clear)
  | .hdEntryModeInc => some (txCommand c.entryModeInc)
  | .hdHome => some (txCommand c.home)
  | .hdDisplayShiftLeft => some (txCommand c.displayShiftLeft)
  | .hdDisplayShiftRight => some (txCommand c.displayShiftRight)
  | .hdCursorShiftLeft => some (txCommand c.cursorShiftLeft)
  | .hdCursorShiftRight => some (txCommand c.cursorShiftRight)
  | .hdAllOn => some (txCommand c.allOn)
  | .hdAllOff => some (txCommand c.allOff)

/-- The state an instruction gives. -/
def execState (i : Instr) (s : State) : State :=
  match bodyOf i s.engine.cursor, requestOf i with
  | none, _ => argumentError s
  | some body, some d => admitted d (lifeRule i) body s
  | some body, none => alone body s

/-- `exec` by its body, request and lifecycle rule. -/
theorem exec_eq (i : Instr) (s : State) : exec i s = .next (execState i s) := by
  cases i with
  | cursor t =>
    simp only [exec, execCursor, execState, bodyOf, requestOf]
    cases cellOfTarget t <;> rfl
  | configure r v =>
    simp only [exec, execConfigure, execState, bodyOf, requestOf]
    cases directionOfVal v <;> rfl
  | write r v =>
    simp only [exec, execWrite, execState, bodyOf, requestOf]
    cases levelOfVal v <;> rfl
  | _ => rfl

theorem exec_next_iff (i : Instr) (s t : State) : exec i s = .next t ↔ t = execState i s := by
  rw [exec_eq]
  exact ⟨fun h => (Host.Outcome.next.inj h).symm, fun h => h ▸ rfl⟩

/-- Everything an instruction can do: an argument error, a violation, or a run of its body. -/
theorem execState_cases (i : Instr) (s : State) :
    (bodyOf i s.engine.cursor = none ∧ execState i s = argumentError s) ∨
    (∃ d, requestOf i = some d ∧ lifeAllows s.engine.life d = false ∧ execState i s = lifecycleViolation d s) ∨
    (∃ body, bodyOf i s.engine.cursor = some body ∧ (∀ d, requestOf i = some d → lifeAllows s.engine.life d = true) ∧
      execState i s = finish (lifeRule i) (runActions body s.engine s.oracle) s) := by
  unfold execState
  cases hb : bodyOf i s.engine.cursor with
  | none => exact .inl ⟨rfl, rfl⟩
  | some body =>
    cases hr : requestOf i with
    | some d =>
      cases ha : lifeAllows s.engine.life d with
      | false => exact .inr (.inl ⟨d, rfl, ha, admitted_forbidden ha⟩)
      | true =>
        exact .inr (.inr ⟨body, rfl, fun d' hd' => by rw [← Option.some.inj hd']; exact ha, admitted_allowed ha⟩)
    | none =>
      refine .inr (.inr ⟨body, rfl, fun d' hd' => by simp at hd', ?_⟩)
      have : lifeRule i = lifeKept := by cases i <;> first | rfl | simp [requestOf] at hr
      simp [alone, this]

/-- What an instruction keeps, one engine at a time: a property of engines that a run of its body, a violation and a change of
the lifecycle keep. -/
theorem execState_engine {P : Engine → Prop} {i : Instr} {s : State} (h : P s.engine)
    (hrun : ∀ body, bodyOf i s.engine.cursor = some body → (∀ d, requestOf i = some d → lifeAllows s.engine.life d = true) →
      P (finish (lifeRule i) (runActions body s.engine s.oracle) s).engine)
    (hfault : ∀ d, requestOf i = some d → lifeAllows s.engine.life d = false → P (setFault (.lifecycleViolation d) s.engine)) :
    P (execState i s).engine := by
  rcases execState_cases i s with ⟨_, he⟩ | ⟨d, hd, ha, he⟩ | ⟨body, hb, ha, he⟩
  · rw [he]; exact h
  · rw [he]; exact hfault d hd ha
  · rw [he]; exact hrun body hb ha

/-! ## The other agents' fields -/

theorem execState_frame (i : Instr) (s : State) :
    (execState i s).engine.pending = s.engine.pending ∧ (execState i s).engine.label = s.engine.label ∧
    (execState i s).others = s.others ∧ (execState i s).nextOrdinal = s.nextOrdinal ∧ (execState i s).inputs = s.inputs ∧
    (execState i s).replies = s.replies ∧ (execState i s).bench = s.bench ∧ (execState i s).turns = s.turns ∧
    (execState i s).oracle.stream = s.oracle.stream := by
  rcases execState_cases i s with ⟨_, he⟩ | ⟨d, _, _, he⟩ | ⟨body, _, _, he⟩ <;> rw [he] <;>
    simp [argumentError, lifecycleViolation]

/-! ## What the bodies hold -/

theorem mem_txByte {rs : Bit} {b : Byte} {a : Action} (h : a ∈ txByte rs b) :
    (∃ t, a = .delay t) ∨ (∃ r v, a = .write r v ∧ (r = .rw → v = false)) := by
  simp only [txByte, txNibble, List.cons_append, List.nil_append, List.mem_cons, List.not_mem_nil, or_false] at h
  rcases h with h | h | h | h | h | h | h | h | h | h | h | h | h | h | h | h | h | h | h | h | h | h <;>
    subst h <;> first | exact .inl ⟨_, rfl⟩ | exact .inr ⟨_, _, rfl, by simp⟩

theorem mem_bytesBody {rs : Bit} {m : CursorMove} {bs : List Byte} {a : Action} (h : a ∈ bytesBody rs m bs) :
    a = .moveCursor m ∨ ∃ b, a ∈ txByte rs b := by
  simp only [bytesBody, List.mem_flatMap, List.mem_append, List.mem_singleton] at h
  obtain ⟨b, _, h | h⟩ := h
  · exact .inr ⟨b, h⟩
  · exact .inl h

/-- An action of an operation after INIT: a write that keeps RW low, a wait or a cursor move. -/
def operationAction (a : Action) : Prop :=
  (∃ t, a = .delay t) ∨ (∃ m, a = .moveCursor m) ∨ ∃ r v, a = .write r v ∧ (r = .rw → v = false)

theorem operationAction_txByte {rs : Bit} {b : Byte} {a : Action} (h : a ∈ txByte rs b) : operationAction a := by
  rcases mem_txByte h with h | h
  · exact .inl h
  · exact .inr (.inr h)

theorem operationAction_command {b : Byte} {more : List Action} (hm : ∀ a ∈ more, operationAction a) {a : Action}
    (h : a ∈ txCommand b ++ more) : operationAction a := by
  rcases List.mem_append.1 h with h | h
  · exact operationAction_txByte h
  · exact hm a h

theorem operationAction_clearBody {c : CommandBytes} {a : Action} (h : a ∈ clearBody c) : operationAction a :=
  operationAction_command (by
    intro a h
    simp only [List.mem_cons, List.not_mem_nil, or_false] at h
    rcases h with rfl | rfl
    · exact .inr (.inl ⟨_, rfl⟩)
    · exact .inl ⟨_, rfl⟩) h

theorem operationAction_bytesBody {rs : Bit} {m : CursorMove} {bs : List Byte} {a : Action} (h : a ∈ bytesBody rs m bs) :
    operationAction a := by
  rcases mem_bytesBody h with h | ⟨b, h⟩
  · exact .inr (.inl ⟨m, h⟩)
  · exact operationAction_txByte h

theorem operationAction_wait {b : Byte} {t : Nat} {a : Action} (h : a ∈ txCommand b ++ [.delay t]) : operationAction a :=
  operationAction_command (fun _ h => .inl ⟨t, List.mem_singleton.1 h⟩) h

/-- Every operation but INIT is made of such actions. -/
theorem operationAction_body {i : Instr} {d : Request} (hd : requestOf i = some d) (hi : i ≠ .init) {here : Fin 80}
    {body : List Action} (hb : bodyOf i here = some body) {a : Action} (h : a ∈ body) : operationAction a := by
  cases i with
  | init => exact absurd rfl hi
  | deinit => cases hb; exact operationAction_clearBody h
  | text p => cases hb; exact operationAction_bytesBody (textBody_eq p ▸ h)
  | clear => cases hb; exact operationAction_clearBody h
  | home =>
    cases hb
    exact operationAction_command (by
      intro a h
      simp only [List.mem_cons, List.not_mem_nil, or_false] at h
      rcases h with rfl | rfl
      · exact .inr (.inl ⟨_, rfl⟩)
      · exact .inl ⟨_, rfl⟩) h
  | shiftLeft => cases hb; exact operationAction_wait h
  | shiftRight => cases hb; exact operationAction_wait h
  | on => cases hb; exact operationAction_wait h
  | off => cases hb; exact operationAction_wait h
  | cursor t =>
    simp only [bodyOf, Option.map_eq_some_iff] at hb
    obtain ⟨cell, _, rfl⟩ := hb
    rw [cursorBody_eq] at h
    split at h <;> exact operationAction_bytesBody h
  | _ => simp [requestOf] at hd

/-- INIT's actions: acquisitions, configurations as outputs, and actions as in the other operations. -/
theorem mem_initBody {c : CommandBytes} {a : Action} (h : a ∈ initBody c) :
    (∃ r, a = .acquire r) ∨ (∃ r, a = .configure r .output) ∨ operationAction a := by
  simp only [initBody, acquireAll, configureAll, List.mem_append, List.mem_map] at h
  rcases h with (⟨r, _, rfl⟩ | ⟨r, _, rfl⟩) | h
  · exact .inl ⟨r, rfl⟩
  · exact .inr (.inl ⟨r, rfl⟩)
  · refine .inr (.inr ?_)
    have nibble : ∀ n : Nibble, a ∈ txNibble n → operationAction a := by
      intro n ha
      simp only [txNibble, List.mem_cons, List.not_mem_nil, or_false] at ha
      rcases ha with h | h | h | h | h | h | h | h | h | h <;> subst h <;>
        first | exact .inl ⟨_, rfl⟩ | exact .inr (.inr ⟨_, _, rfl, by simp⟩)
    simp only [powerOnSequence, List.mem_append, List.mem_cons, List.not_mem_nil, or_false] at h
    rcases h with (((((((((((h | h | h) | h) | h) | h) | h) | h) | h) | h) | h) | h) | h) | h
    all_goals first
      | exact nibble _ h
      | exact operationAction_txByte h
      | exact operationAction_clearBody h
      | (subst h; first | exact .inl ⟨_, rfl⟩ | exact .inr (.inr ⟨_, _, rfl, by simp⟩))

end Sys2Proof.Machine
end

