-- ==== Sys2Proof/Laws/Guard.lean ====
section
/-! SUPPORT. The agents' steps: picking from a list, answering a caller, and what one step does to the engines. -/

namespace Sys2Proof.Machine

/-! ## Picking -/

theorem pickFrom_nil {α : Type} (k : Nat) : pickFrom k ([] : List α) = none := by simp [pickFrom]

/-- The member at a position is picked by its position. -/
theorem pickFrom_at {α : Type} (before after : List α) (x : α) :
    pickFrom before.length (before ++ x :: after) = some (x, before ++ after) := by
  have h : before.length % (before ++ x :: after).length = before.length :=
    Nat.mod_eq_of_lt (by simp)
  unfold pickFrom
  rw [h]
  simp [List.eraseIdx_append_of_length_le]

/-- What is picked is a member, and the others keep their order. -/
theorem pickFrom_some {α : Type} {k : Nat} {l rest : List α} {x : α} (h : pickFrom k l = some (x, rest)) :
    ∃ before after, l = before ++ x :: after ∧ rest = before ++ after := by
  unfold pickFrom at h
  split at h
  · next y hy =>
    simp only [Option.some.injEq, Prod.mk.injEq] at h
    obtain ⟨rfl, rfl⟩ := h
    obtain ⟨hlt, hget⟩ := List.getElem?_eq_some_iff.1 hy
    refine ⟨l.take (k % l.length), l.drop (k % l.length + 1), ?_, List.eraseIdx_eq_take_drop_succ ..⟩
    rw [← hget, List.getElem_cons_drop, List.take_append_drop]
  · simp at h

theorem pickFrom_cons_ne_none {α : Type} (k : Nat) (x : α) (l : List α) : ∃ y rest, pickFrom k (x :: l) = some (y, rest) := by
  have hlt : k % (x :: l).length < (x :: l).length := Nat.mod_lt _ (by simp)
  exact ⟨(x :: l)[k % (x :: l).length], (x :: l).eraseIdx (k % (x :: l).length), by
    unfold pickFrom
    rw [List.getElem?_eq_getElem hlt]⟩

/-! ## Answers -/

@[simp] theorem answer_next (c : Caller) (s : State) : answer c (.next s) = .next (replyReturned c s) := rfl

/-- An instruction that runs for a caller. -/
theorem answer_exec (c : Caller) (i : Instr) (s : State) :
    answer c (exec i s) = .next (replyReturned c (execState i s)) := by
  rw [exec_eq]; rfl

/-! ## Steps -/

/-- The state after an admission. -/
def admitState (k : Nat) (s : State) : State :=
  match pickFrom k s.engine.pending with
  | some (p, rest) => replyReturned p.caller (execState p.request.toInstr (setPending rest s))
  | none => s

theorem admit_eq (k : Nat) (s : State) : admitOne k s = .next (admitState k s) := by
  unfold admitOne admitState
  cases pickFrom k s.engine.pending with
  | some q => exact answer_exec ..
  | none => rfl

/-- An admission of the request at a position. -/
theorem admitState_at {s : State} {before after : List Pending} {p : Pending} (h : s.engine.pending = before ++ p :: after) :
    admitState before.length s = replyReturned p.caller (execState p.request.toInstr (setPending (before ++ after) s)) := by
  simp [admitState, h, pickFrom_at]

/-- Everything an admission can do: nothing where none is pending, or one pending request runs and its caller is answered. -/
theorem admitState_cases (k : Nat) (s : State) :
    (s.engine.pending = [] ∧ admitState k s = s) ∨
    ∃ before after p, s.engine.pending = before ++ p :: after ∧
      admitState k s = replyReturned p.caller (execState p.request.toInstr (setPending (before ++ after) s)) := by
  unfold admitState
  cases hk : pickFrom k s.engine.pending with
  | some q =>
    obtain ⟨before, after, hl, hr⟩ := pickFrom_some hk
    exact .inr ⟨before, after, q.1, hl, by rw [← hr]⟩
  | none =>
    refine .inl ⟨?_, rfl⟩
    cases hp : s.engine.pending with
    | nil => rfl
    | cons p ps =>
      obtain ⟨y, rest, h⟩ := pickFrom_cons_ne_none k p ps
      rw [hp, h] at hk
      cases hk

/-- The state after an input. -/
def inputState (i : Input) (s : State) : State :=
  match i with
  | .construct l => construct l s
  | .turnTo k => turnTo k s
  | .submit c w p => submit c w p s
  | .surface c sf => useSurface c sf s
  | .admitOne k => admitState k s
  | .cancel k => cancel k s
  | .readKeywords c => reply c (.keywords keywordList) s
  | .readLabel c => reply c (.label s.engine.label) s

theorem runInput_eq (i : Input) (s : State) : runInput i s = .next (inputState i s) := by
  cases i <;> first | rfl | exact admit_eq ..

/-- The state an engine's own choice starts from: one free value of its stream is drawn. -/
def drawn (s : State) : State := { s with oracle := { s.oracle with draws := s.oracle.draws + 1 } }

/-- The state after an engine's own choice. -/
def admitSomeState (s : State) : State := admitState (Config.freeChoice s.oracle.stream s.oracle.draws) (drawn s)

theorem admitSome_eq (s : State) : admitSome s = .next (admitSomeState s) := admit_eq ..

/-- The state after the engines' own turn. -/
def enginesState (s : State) : State :=
  match pickFrom (Config.freeTurn s.turns) (busyPositions (displays s)) with
  | some (j, _) => admitSomeState (turnTo j { s with turns := s.turns + 1 })
  | none => s

theorem enginesTurn_eq (s : State) : enginesTurn s = .next (enginesState s) := by
  unfold enginesTurn enginesState
  cases pickFrom (Config.freeTurn s.turns) (busyPositions (displays s)) with
  | some q => exact admitSome_eq ..
  | none => rfl

/-- The state after a step of an agent. -/
def agentsState (s : State) : State :=
  match s.inputs with
  | i :: rest => inputState i { s with inputs := rest }
  | [] => enginesState s

theorem runAgents_eq (s : State) : runAgents s = .next (agentsState s) := by
  unfold runAgents agentsState
  cases s.inputs with
  | cons i rest => exact runInput_eq ..
  | nil => exact enginesTurn_eq ..

/-- The state after a word driven alone. -/
def benchState (p : Packet) (s : State) : State :=
  match decode p with
  | .ok i => execState i s
  | .error _ => argumentError s

theorem runBench_eq (p : Packet) (s : State) : runBench p s = .next (benchState p s) := by
  unfold runBench benchState
  cases decode p with
  | ok i => exact exec_eq ..
  | error e => rfl

/-- The state after a step. -/
def stepState (s : State) : State :=
  match s.bench with
  | some p => benchState p { s with bench := none }
  | none => agentsState s

theorem step_eq (s : State) : step s = .next (stepState s) := by
  unfold step stepState
  cases s.bench with
  | some p => exact runBench_eq ..
  | none => exact runAgents_eq ..

theorem step_next_iff (s t : State) : step s = .next t ↔ t = stepState s := by
  rw [step_eq]
  exact ⟨fun h => (Host.Outcome.next.inj h).symm, fun h => h ▸ rfl⟩

theorem stepState_agents {s : State} (h : s.bench = none) : stepState s = agentsState s := by simp [stepState, h]

/-- A step that takes an input. -/
theorem stepState_input {s : State} {i : Input} {rest : List Input} (hb : s.bench = none) (hi : s.inputs = i :: rest) :
    stepState s = inputState i { s with inputs := rest } := by
  simp [stepState_agents hb, agentsState, hi]

/-! ## Engines -/

@[simp] theorem mem_displays (d : Display) (s : State) : d ∈ displays s ↔ d = ⟨s.engine, s.oracle⟩ ∨ d ∈ s.others := by
  simp [displays]

theorem everyEngine_iff (P : Engine → Prop) (s : State) :
    EveryEngine P s ↔ P s.engine ∧ ∀ d ∈ s.others, P d.engine := by
  simp [EveryEngine]

/-- Turning to an engine only moves it to the front. -/
theorem turnTo_displays (k : Nat) (s : State) : (displays (turnTo k s)).Perm (displays s) := by
  unfold turnTo
  split
  · next d rest hk =>
    obtain ⟨before, after, hl, rfl⟩ := pickFrom_some hk
    rw [hl]
    exact List.perm_middle.symm
  · exact .refl _

/-- Turning to an engine changes nothing but which engine is the first. -/
theorem turnTo_eq (k : Nat) (s : State) :
    turnTo k s
      = { s with engine := (turnTo k s).engine, oracle := (turnTo k s).oracle, others := (turnTo k s).others } := by
  unfold turnTo
  split <;> rfl

theorem mem_busyPositions {j : Nat} {ds : List Display} :
    j ∈ busyPositions ds ↔ ∃ d, ds[j]? = some d ∧ d.engine.pending ≠ [] := by
  unfold busyPositions
  simp only [List.mem_filter, List.mem_range]
  constructor
  · rintro ⟨hj, h⟩
    rw [List.getElem?_eq_getElem hj] at h ⊢
    exact ⟨_, rfl, by simpa using h⟩
  · rintro ⟨d, hd, hp⟩
    obtain ⟨hj, _⟩ := List.getElem?_eq_some_iff.1 hd
    exact ⟨hj, by simp [hd, hp]⟩

/-- Everything the engines' own turn can do: nothing where nothing is pending, or one engine with a pending request is the first
and admits one. -/
theorem enginesState_cases (s : State) :
    ((∀ d ∈ displays s, d.engine.pending = []) ∧ enginesState s = s) ∨
    ∃ j d, (displays s)[j]? = some d ∧ d.engine.pending ≠ [] ∧
      turnTo j { s with turns := s.turns + 1 }
        = { s with turns := s.turns + 1, engine := d.engine, oracle := d.oracle, others := (displays s).eraseIdx j } ∧
      enginesState s = admitSomeState (turnTo j { s with turns := s.turns + 1 }) := by
  unfold enginesState
  cases hk : pickFrom (Config.freeTurn s.turns) (busyPositions (displays s)) with
  | none =>
    refine .inl ⟨fun d hd => ?_, rfl⟩
    obtain ⟨j, hj⟩ := List.mem_iff_getElem?.1 hd
    by_contra hp
    have hm : j ∈ busyPositions (displays s) := mem_busyPositions.2 ⟨d, hj, hp⟩
    obtain ⟨x, l, hl⟩ := List.exists_cons_of_ne_nil (List.ne_nil_of_mem hm)
    obtain ⟨y, rest, h⟩ := pickFrom_cons_ne_none (Config.freeTurn s.turns) x l
    rw [hl, h] at hk
    cases hk
  | some q =>
    obtain ⟨before, after, hl, _⟩ := pickFrom_some hk
    obtain ⟨d, hd, hp⟩ := mem_busyPositions.1 (hl ▸ List.mem_append_right before (List.mem_cons_self ..))
    refine .inr ⟨q.1, d, hd, hp, ?_, rfl⟩
    have hds : displays { s with turns := s.turns + 1 } = displays s := rfl
    have hlt : q.1 % (displays s).length = q.1 := Nat.mod_eq_of_lt (List.getElem?_eq_some_iff.1 hd).1
    simp [turnTo, hds, pickFrom, hlt, hd]

/-! ## What a step keeps of the engines -/

section Keeps

variable {P : Engine → Prop}

theorem everyEngine_exec {i : Instr} {s : State} (c : Caller) (hx : P s.engine → P (execState i s).engine)
    (h : EveryEngine P s) : EveryEngine P (replyReturned c (execState i s)) := by
  rw [everyEngine_iff] at h ⊢
  exact ⟨by simpa using hx h.1, by simpa [(execState_frame i s).2.2.1] using h.2⟩

@[simp] theorem everyEngine_drawn (s : State) : EveryEngine P (drawn s) ↔ EveryEngine P s := by
  simp [everyEngine_iff, drawn]

theorem everyEngine_turnTo (k : Nat) {s : State} (h : EveryEngine P s) : EveryEngine P (turnTo k s) :=
  fun d hd => h d ((turnTo_displays k s).mem_iff.1 hd)

/-- A property that submission, leaving `pending`, construction and the requests keep is kept by every step of the agents. -/
theorem agentsState_everyEngine
    (hadd : ∀ e c r, P e → argumentOk r = true → P { e with pending := e.pending ++ [⟨c, r⟩] })
    (hdrop : ∀ e before p after, P e → e.pending = before ++ p :: after → P { e with pending := before ++ after })
    (hf : ∀ l, P (Engine.fresh l)) (hx : ∀ (r : Request) s, P s.engine → P (execState r.toInstr s).engine) (s : State)
    (h : EveryEngine P s) : EveryEngine P (agentsState s) := by
  have admits : ∀ k (s : State), EveryEngine P s → EveryEngine P (admitState k s) := by
    intro k s h
    rcases admitState_cases k s with ⟨_, he⟩ | ⟨before, after, p, hp, he⟩
    · rwa [he]
    · rw [he]
      rw [everyEngine_iff] at h
      exact everyEngine_exec _ (hx _ _) ((everyEngine_iff ..).2 ⟨hdrop _ _ _ _ h.1 hp, h.2⟩)
  have submits : ∀ c w p (s : State), EveryEngine P s → EveryEngine P (submit c w p s) := by
    intro c w p s h
    unfold submit
    split
    · unfold enqueue
      split
      · next ha =>
        rw [everyEngine_iff] at h ⊢
        exact ⟨hadd _ _ _ h.1 ha, h.2⟩
      · exact h
    · exact h
  unfold agentsState
  split
  · next i rest _ =>
    have h' : EveryEngine P { s with inputs := rest } := h
    generalize ({ s with inputs := rest } : State) = u at h'
    cases i with
    | construct l => exact fun d hd => (List.mem_cons.1 hd).elim (fun e => e ▸ hf _) (h' d)
    | turnTo k => exact everyEngine_turnTo k h'
    | submit c w p => exact submits c w p u h'
    | surface c sf =>
      simp only [inputState, useSurface]
      split
      · exact submits _ _ _ _ h'
      · exact h'
    | admitOne k => exact admits k u h'
    | cancel k =>
      simp only [inputState, cancel]
      split
      · next p more hk =>
        obtain ⟨before, after, hp, rfl⟩ := pickFrom_some hk
        rw [everyEngine_iff] at h' ⊢
        exact ⟨hdrop _ _ _ _ h'.1 hp, h'.2⟩
      · exact h'
    | readKeywords c => exact h'
    | readLabel c => exact h'
  · rcases enginesState_cases s with ⟨_, he⟩ | ⟨j, d, _, _, _, he⟩
    · rwa [he]
    · rw [he]
      have ht := everyEngine_turnTo j (s := { s with turns := s.turns + 1 }) h
      exact admits _ (drawn _) ((everyEngine_drawn _).2 ht)

/-- A property of engines that every instruction keeps, that does not look at `pending`, and that holds of a fresh engine, is kept
by every step for every engine, words driven alone included. -/
theorem stepState_everyEngine (hp : ∀ e ps, P e → P { e with pending := ps }) (hf : ∀ l, P (Engine.fresh l))
    (hx : ∀ i s, P s.engine → P (execState i s).engine) (s : State) (h : EveryEngine P s) : EveryEngine P (stepState s) := by
  unfold stepState
  split
  · unfold benchState
    split
    · next i _ =>
      rw [everyEngine_iff] at h ⊢
      exact ⟨hx i { s with bench := none } h.1, by rw [(execState_frame _ _).2.2.1]; exact h.2⟩
    · exact h
  · exact agentsState_everyEngine (fun e _ _ h _ => hp e _ h) (fun e _ _ _ h _ => hp e _ h) hf (fun r => hx r.toInstr) s h

end Keeps

/-! ## The bench -/

@[simp] theorem execState_bench (i : Instr) (s : State) : (execState i s).bench = s.bench := (execState_frame i s).2.2.2.2.2.2.1

@[simp] theorem turnTo_bench (k : Nat) (s : State) : (turnTo k s).bench = s.bench := by rw [turnTo_eq]

@[simp] theorem submit_bench (c : Caller) (w : BitVec 16) (p : List Byte) (s : State) : (submit c w p s).bench = s.bench := by
  unfold submit enqueue
  split <;> (try split) <;> rfl

@[simp] theorem admitState_bench (k : Nat) (s : State) : (admitState k s).bench = s.bench := by
  rcases admitState_cases k s with ⟨_, he⟩ | ⟨_, _, _, _, he⟩ <;> simp [he]

/-- No agent's step drives a word alone. -/
@[simp] theorem agentsState_bench (s : State) : (agentsState s).bench = s.bench := by
  unfold agentsState
  split
  · next i rest _ =>
    cases i with
    | turnTo k => exact turnTo_bench ..
    | submit c w p => exact submit_bench ..
    | surface c sf =>
      simp only [inputState, useSurface]
      split
      · exact submit_bench ..
      · rfl
    | admitOne k => exact admitState_bench ..
    | cancel k =>
      simp only [inputState, cancel]
      split <;> rfl
    | construct l | readKeywords c | readLabel c => rfl
  · rcases enginesState_cases s with ⟨_, he⟩ | ⟨j, d, _, _, _, he⟩
    · rw [he]
    · rw [he]
      exact (admitState_bench ..).trans (turnTo_bench ..)

end Sys2Proof.Machine
end

