-- ==== Sys2Proof/Laws/PerInstr.lean ====
section
/-! SUPPORT. Statements about every instruction as syntax, one lemma per constructor. Family `EncodingMask`: the encoded word lies in
its row of spec/opcode_table.json. -/

namespace Sys2Proof.Laws.EncodingMask

/-- A row's format, match and mask. -/
structure Row where
  format : Format
  matchBits : Nat
  mask : Nat
deriving DecidableEq, Repr

/-- The row of an instruction, copied from spec/opcode_table.json. -/
def row : Instr → Row
  | .init => ⟨.req16, 0x1000, 0xFFFF⟩
  | .deinit => ⟨.req16, 0x2000, 0xFFFF⟩
  | .text _ => ⟨.req16, 0x3000, 0xFFFF⟩
  | .clear => ⟨.req16, 0x4000, 0xFFFF⟩
  | .home => ⟨.req16, 0x5000, 0xFFFF⟩
  | .shiftLeft => ⟨.req16, 0x6000, 0xFFFF⟩
  | .shiftRight => ⟨.req16, 0x7000, 0xFFFF⟩
  | .on => ⟨.req16, 0x8000, 0xFFFF⟩
  | .off => ⟨.req16, 0x9000, 0xFFFF⟩
  | .cursor _ => ⟨.req16, 0xA000, 0xFF00⟩
  | .configure _ _ => ⟨.gpio8, 0x00, 0xC4⟩
  | .write _ _ => ⟨.gpio8, 0x40, 0xC4⟩
  | .txNibble _ _ => ⟨.latch6, 0x00, 0x10⟩
  | .txCommand _ => ⟨.bus10, 0x000, 0x300⟩
  | .txChar _ => ⟨.bus10, 0x200, 0x300⟩
  | .hdFunctionSet => ⟨.hd8, 0x28, 0xFF⟩
  | .hdDisplayOnCursorOn => ⟨.hd8, 0x0E, 0xFF⟩
  | .hdClear => ⟨.hd8, 0x01, 0xFF⟩
  | .hdEntryModeInc => ⟨.hd8, 0x06, 0xFF⟩
  | .hdHome => ⟨.hd8, 0x02, 0xFF⟩
  | .hdDisplayShiftLeft => ⟨.hd8, 0x18, 0xFF⟩
  | .hdDisplayShiftRight => ⟨.hd8, 0x1C, 0xFF⟩
  | .hdCursorShiftLeft => ⟨.hd8, 0x10, 0xFF⟩
  | .hdCursorShiftRight => ⟨.hd8, 0x14, 0xFF⟩
  | .hdAllOn => ⟨.hd8, 0x0F, 0xFF⟩
  | .hdAllOff => ⟨.hd8, 0x08, 0xFF⟩

/-- The encoded word has its row's format and fixed bits, and fits the format. -/
def Statement (i : Instr) : Prop :=
  (encode i).format = (row i).format ∧ (encode i).word &&& (row i).mask = (row i).matchBits ∧
    (encode i).word < 2 ^ (row i).format.width

theorem init : Statement .init := ⟨by decide, by decide, by decide⟩
theorem deinit : Statement .deinit := ⟨by decide, by decide, by decide⟩
theorem text (p : List Byte) : Statement (.text p) := by
  have h : (encode (.text p)).word = 0x3000 := by
    show (3#4 ++ 0#4 ++ 0#8 : BitVec 16).toNat = 0x3000
    decide
  exact ⟨rfl, by rw [h]; show 0x3000 &&& 0xFFFF = 0x3000; decide, by rw [h]; show 0x3000 < 2 ^ 16; decide⟩
theorem clear : Statement .clear := ⟨by decide, by decide, by decide⟩
theorem home : Statement .home := ⟨by decide, by decide, by decide⟩
theorem shiftLeft : Statement .shiftLeft := ⟨by decide, by decide, by decide⟩
theorem shiftRight : Statement .shiftRight := ⟨by decide, by decide, by decide⟩
theorem on : Statement .on := ⟨by decide, by decide, by decide⟩
theorem off : Statement .off := ⟨by decide, by decide, by decide⟩
theorem cursor (t : Byte) : Statement (.cursor t) := by
  refine ⟨rfl, ?_, ?_⟩ <;> (revert t; decide)
theorem configure (r : Role) (v : BitVec 2) : Statement (.configure r v) := by
  refine ⟨rfl, ?_, ?_⟩ <;> (cases r <;> revert v <;> decide)
theorem write (r : Role) (v : BitVec 2) : Statement (.write r v) := by
  refine ⟨rfl, ?_, ?_⟩ <;> (cases r <;> revert v <;> decide)
theorem txNibble (rs : Bit) (n : Nibble) : Statement (.txNibble rs n) := by
  refine ⟨rfl, ?_, ?_⟩ <;> (revert rs n; decide)
theorem txCommand (b : Byte) : Statement (.txCommand b) := by
  refine ⟨rfl, ?_, ?_⟩ <;> (revert b; decide)
theorem txChar (b : Byte) : Statement (.txChar b) := by
  refine ⟨rfl, ?_, ?_⟩ <;> (revert b; decide)
theorem hdFunctionSet : Statement .hdFunctionSet := ⟨by decide, by decide, by decide⟩
theorem hdDisplayOnCursorOn : Statement .hdDisplayOnCursorOn := ⟨by decide, by decide, by decide⟩
theorem hdClear : Statement .hdClear := ⟨by decide, by decide, by decide⟩
theorem hdEntryModeInc : Statement .hdEntryModeInc := ⟨by decide, by decide, by decide⟩
theorem hdHome : Statement .hdHome := ⟨by decide, by decide, by decide⟩
theorem hdDisplayShiftLeft : Statement .hdDisplayShiftLeft := ⟨by decide, by decide, by decide⟩
theorem hdDisplayShiftRight : Statement .hdDisplayShiftRight := ⟨by decide, by decide, by decide⟩
theorem hdCursorShiftLeft : Statement .hdCursorShiftLeft := ⟨by decide, by decide, by decide⟩
theorem hdCursorShiftRight : Statement .hdCursorShiftRight := ⟨by decide, by decide, by decide⟩
theorem hdAllOn : Statement .hdAllOn := ⟨by decide, by decide, by decide⟩
theorem hdAllOff : Statement .hdAllOff := ⟨by decide, by decide, by decide⟩

end Sys2Proof.Laws.EncodingMask
end

