-- ==== Sys2Proof/Laws/Requests.lean ====
section
/-! SUPPORT. What bodies on outputs can end in, requests and their bodies, instructions beside other engines, and how latches of traces
join. -/

namespace Sys2Proof.Machine

/-! ## Endings -/

/-- Writes to outputs end with a status and leave the fault. -/
theorem runActions_writable {as : List Action} {e : Engine} {o : Oracle} (h : Writable as e) :
    (runActions as e o).ending ≠ .notOutput ∧ (runActions as e o).engine.fault = e.fault := by
  induction as generalizing e o with
  | nil => simp [runActions]
  | cons a as ih =>
    have hd : ((doAction a e o).ending = .done ∧ (doAction a e o).engine = applyAction a e) ∨
        ((doAction a e o).ending ≠ .done ∧ (doAction a e o).ending ≠ .notOutput ∧ (doAction a e o).engine.fault = e.fault) := by
      cases a with
      | acquire r => simp only [doAction, acquireLine]; split <;> simp [applyAction]
      | configure r d => simp only [doAction, configureLine]; split <;> simp_all [applyAction]
      | write r v => simp only [doAction, writeLine, h.1, if_true]; split <;> simp_all [applyAction]
      | delay t => simp [doAction, applyAction]
      | moveCursor m => simp [doAction, applyAction]
    have hf : (applyAction a e).fault = e.fault := by cases a <;> rfl
    rcases hd with ⟨h1, h2⟩ | ⟨h1, h2, h3⟩
    · simp only [runActions, h1, h2]
      have := ih (o := (doAction a e o).oracle) h.2
      exact ⟨this.1, this.2.trans hf⟩
    · simp only [runActions]
      split
      · next h => exact absurd h h1
      · exact ⟨h2, h3⟩
      · exact ⟨h2, h3⟩

/-- Without acquisitions and configurations no run ends in E_HWCFG. -/
theorem runActions_no_hwCfg {as : List Action} (ha : ∀ r, .acquire r ∉ as) (hc : ∀ r d, .configure r d ∉ as) (e : Engine)
    (o : Oracle) : (runActions as e o).ending ≠ .raised .eHwCfg := by
  induction as generalizing e o with
  | nil => simp [runActions]
  | cons a as ih =>
    have ih := ih (fun r hr => ha r (List.mem_cons_of_mem _ hr)) (fun r d hr => hc r d (List.mem_cons_of_mem _ hr))
    simp only [runActions]
    split
    · exact ih _ _
    all_goals
      cases a with
      | acquire r => exact absurd (List.mem_cons_self ..) (ha r)
      | configure r d => exact absurd (List.mem_cons_self ..) (hc r d)
      | write r v => simp only [doAction, writeLine]; split <;> (try split) <;> simp
      | delay t => simp [doAction]
      | moveCursor m => simp [doAction]

/-- Everything a run does to the fault: nothing, or it stops at a write to a line that is not an output. -/
theorem runActions_fault (as : List Action) (e : Engine) (o : Oracle) :
    ((runActions as e o).ending ≠ .notOutput ∧ (runActions as e o).engine.fault = e.fault) ∨
    ((runActions as e o).ending = .notOutput ∧ ∃ r, (runActions as e o).engine.fault = some (.writeNotOutput r) ∧
      (lineOf (runActions as e o).engine.lines r).dir ≠ .output) := by
  induction as generalizing e o with
  | nil => exact .inl ⟨by simp [runActions], rfl⟩
  | cons a as ih =>
    have hd : ((doAction a e o).ending ≠ .notOutput ∧ (doAction a e o).engine.fault = e.fault) ∨
        ((doAction a e o).ending = .notOutput ∧ ∃ r, (doAction a e o).engine.fault = some (.writeNotOutput r) ∧
          (lineOf (doAction a e o).engine.lines r).dir ≠ .output) := by
      cases a with
      | acquire r => simp only [doAction, acquireLine]; split <;> exact .inl (by simp)
      | configure r d => simp only [doAction, configureLine]; split <;> exact .inl (by simp)
      | write r v =>
        simp only [doAction, writeLine]
        split
        · split <;> exact .inl (by simp)
        · next h => exact .inr ⟨rfl, r, rfl, h⟩
      | delay t => exact .inl ⟨by simp [doAction], rfl⟩
      | moveCursor m => exact .inl ⟨by simp [doAction], rfl⟩
    simp only [runActions]
    split
    · next hdone =>
      rcases hd with ⟨_, hf⟩ | ⟨hn, _⟩
      · rcases ih (doAction a e o).engine (doAction a e o).oracle with ⟨h1, h2⟩ | h
        · exact .inl ⟨h1, h2.trans hf⟩
        · exact .inr h
      · rw [hdone] at hn; cases hn
    · exact hd
    · exact hd

/-! ## Requests -/

theorem requestOf_toInstr (r : Request) : requestOf r.toInstr = some r := by cases r <;> rfl

/-- A request whose argument passes has a body. -/
theorem bodyOf_toInstr {r : Request} (h : argumentOk r = true) (here : Fin 80) :
    ∃ body, bodyOf r.toInstr here = some body := by
  cases r with
  | cursor t =>
    have : t.toNat < 80 := decide_eq_true_iff.1 h
    exact ⟨_, by simp only [bodyOf, Request.toInstr, cellOfTarget, this, dite_true]; rfl⟩
  | init | deinit | text p | clear | home | shiftLeft | shiftRight | on | off => exact ⟨_, rfl⟩

/-- Operations after INIT neither acquire nor configure a line. -/
theorem operationAction_setup {body : List Action} (h : ∀ a ∈ body, operationAction a) :
    (∀ r, .acquire r ∉ body) ∧ ∀ r d, .configure r d ∉ body := by
  constructor
  · intro r hr
    have := h _ hr
    simp [operationAction] at this
  · intro r d hr
    have := h _ hr
    simp [operationAction] at this

theorem operationAction_writable {body : List Action} (h : ∀ a ∈ body, operationAction a) {e : Engine}
    (ho : Outputs e.lines) : Writable body e :=
  writable_of_outputs (operationAction_setup h).1 (operationAction_setup h).2 fun r _ _ => ho r

/-! ## Other engines -/

/-- Instructions do not look at the other engines. -/
theorem execState_others (i : Instr) (s : State) (os : List Display) :
    execState i { s with others := os } = { execState i s with others := os } := by
  unfold execState
  simp only
  split
  · rfl
  · simp only [admitted]
    split <;> rfl
  · rfl

/-! ## Latches -/

theorem latchesFrom_append (ls : LineSet) (xs ys : List Event) :
    latchesFrom ls (xs ++ ys) = latchesFrom ls xs ++ latchesFrom (replay ls xs) ys := by
  induction xs generalizing ls with
  | nil => rfl
  | cons x xs ih => simp [latchesFrom, ih, replay]

/-! ## Runs -/

theorem host_run_succ (m : Host.Core) (n : Nat) {s t : m.State} (h : m.step s = .next t) : m.run (n + 1) s = m.run n t := by
  rw [Host.Core.run, h]

/-- A run whose first step is known. -/
theorem core_run_succ (n : Nat) {s t : State} (h : step s = .next t) : core.run (n + 1) s = core.run n t :=
  host_run_succ core n h

end Sys2Proof.Machine
end

