-- ==== Sys2Proof/Tests/Slice0.lean ====
section
/-! SUPPORT. Own tests. The expected results are those of spec/95_test_vectors.md, named in the comments, or are read from the rules;
the witnesses meet the hypotheses of the statements in Certificates/Slice0/Obligations.lean. -/

namespace Sys2Proof.Tests

open Sys2Proof Sys2Proof.Machine

/-! ## Helpers -/

/-- "ready(c)" of 95_test_vectors.md: the levels INIT left, `[0,0,0,0,1,1,0]`, and an empty trace, so that the events seen are the
vector's own. -/
def readyLines : LineSet :=
  ⟨outputAt false, outputAt false, outputAt false, outputAt false, outputAt true, outputAt true, outputAt false⟩

def emptyState : State :=
  { engine := Engine.fresh [], oracle := Oracle.fresh 0, others := [], nextOrdinal := 1, inputs := [], bench := none, turns := 0,
    returned := none, replies := [] }

def readyAt (c : Fin 80) : State :=
  { emptyState with engine := { Engine.fresh [] with lines := readyLines, cursor := c, life := .ready } }

def answered (as : List Bool) (s : State) : State := { s with oracle := { s.oracle with answers := as } }

/-- `n` calls answered ok. -/
def okFor (n : Nat) (s : State) : State := answered (List.replicate n true) s

/-- `k` calls answered ok and the next one failed. -/
def failAfter (k : Nat) (s : State) : State := answered (List.replicate k true ++ [false]) s

def asks (is : List Input) (s : State) : State := { s with inputs := is }

/-- A word driven alone. -/
def drives (p : Packet) (s : State) : State := { s with bench := some p }

def waiting (ps : List Pending) (s : State) : State := { s with engine := { s.engine with pending := ps } }

def levels (ls : LineSet) : List (Option Bit) :=
  [ls.rs.lvl, ls.rw.lvl, ls.en.lvl, ls.d4.lvl, ls.d5.lvl, ls.d6.lvl, ls.d7.lvl]

/-- Levels as the vectors list them. -/
def bits (l : List Nat) : List (Option Bit) := l.map fun b => some (b == 1)

/-- A latch `(RS,RW,nibble)`. -/
def latch (rs rw : Bit) (n : Nibble) : Latch := nibbleLatch (some rs) (some rw) n

def after (o : Host.Outcome State Fault Refusal) : Option State :=
  match o with
  | .next s => some s
  | .fault _ => none
  | .refused _ => none

/-- What the vectors list of a request. -/
structure Seen where
  status : Option Status
  events : Nat
  leastTime : Nat
  latches : List Latch
  cursor : Fin 80
  levels : List (Option Bit)
deriving DecidableEq, Repr

/-- What an instruction does to a state whose trace is empty. -/
def seen (i : Instr) (s : State) : Option Seen :=
  (after (exec i s)).map fun t =>
    ⟨t.returned, t.engine.trace.length, minTime t.engine.trace, latchesFrom s.engine.lines t.engine.trace, t.engine.cursor,
      levels t.engine.lines⟩

/-! ## WellFormed refuses -/

theorem test_cursor_80_ill_formed : (Instr.cursor 80#8).wellFormed = false := by decide
theorem test_cursor_79_well_formed : (Instr.cursor 79#8).wellFormed = true := by decide
theorem test_configure_val_2_ill_formed : (Instr.configure .rs 2#2).wellFormed = false := by decide
theorem test_write_val_3_ill_formed : (Instr.write .d7 3#2).wellFormed = false := by decide

/-! ## Decoding: one word of every constructor, bit by bit from 30_encoding.md R45, R46, R51 to R54 -/

theorem test_word_init : decode ⟨.req16, 0b0001000000000000, []⟩ = .ok .init := by decide
theorem test_word_deinit : decode ⟨.req16, 0b0010000000000000, []⟩ = .ok .deinit := by decide
theorem test_word_text : decode ⟨.req16, 0b0011000000000000, [0x48#8, 0x69#8]⟩ = .ok (.text [0x48#8, 0x69#8]) := by decide
theorem test_word_clear : decode ⟨.req16, 0b0100000000000000, []⟩ = .ok .clear := by decide
theorem test_word_home : decode ⟨.req16, 0b0101000000000000, []⟩ = .ok .home := by decide
theorem test_word_shift_left : decode ⟨.req16, 0b0110000000000000, []⟩ = .ok .shiftLeft := by decide
theorem test_word_shift_right : decode ⟨.req16, 0b0111000000000000, []⟩ = .ok .shiftRight := by decide
theorem test_word_on : decode ⟨.req16, 0b1000000000000000, []⟩ = .ok .on := by decide
theorem test_word_off : decode ⟨.req16, 0b1001000000000000, []⟩ = .ok .off := by decide
theorem test_word_cursor : decode ⟨.req16, 0b1010000000100110, []⟩ = .ok (.cursor 38#8) := by decide
theorem test_word_cursor_80 : decode ⟨.req16, 0b1010000001010000, []⟩ = .ok (.cursor 80#8) := by decide
theorem test_word_configure : decode ⟨.gpio8, 0b00010001, []⟩ = .ok (.configure .en 1#2) := by decide
theorem test_word_write : decode ⟨.gpio8, 0b01110001, []⟩ = .ok (.write .d7 1#2) := by decide
theorem test_word_write_val_3 : decode ⟨.gpio8, 0b01110011, []⟩ = .ok (.write .d7 3#2) := by decide
theorem test_word_tx_nibble : decode ⟨.latch6, 0b100100, []⟩ = .ok (.txNibble true 0x4#4) := by decide
theorem test_word_tx_command : decode ⟨.bus10, 0b0000101000, []⟩ = .ok (.txCommand 0x28#8) := by decide
theorem test_word_tx_char : decode ⟨.bus10, 0b1001000001, []⟩ = .ok (.txChar 0x41#8) := by decide
theorem test_word_function_set : decode ⟨.hd8, 0b00101000, []⟩ = .ok .hdFunctionSet := by decide
theorem test_word_display_on_cursor_on : decode ⟨.hd8, 0b00001110, []⟩ = .ok .hdDisplayOnCursorOn := by decide
theorem test_word_hd_clear : decode ⟨.hd8, 0b00000001, []⟩ = .ok .hdClear := by decide
theorem test_word_entry_mode_inc : decode ⟨.hd8, 0b00000110, []⟩ = .ok .hdEntryModeInc := by decide
theorem test_word_hd_home : decode ⟨.hd8, 0b00000010, []⟩ = .ok .hdHome := by decide
theorem test_word_display_shift_left : decode ⟨.hd8, 0b00011000, []⟩ = .ok .hdDisplayShiftLeft := by decide
theorem test_word_display_shift_right : decode ⟨.hd8, 0b00011100, []⟩ = .ok .hdDisplayShiftRight := by decide
theorem test_word_cursor_shift_left : decode ⟨.hd8, 0b00010000, []⟩ = .ok .hdCursorShiftLeft := by decide
theorem test_word_cursor_shift_right : decode ⟨.hd8, 0b00010100, []⟩ = .ok .hdCursorShiftRight := by decide
theorem test_word_all_on : decode ⟨.hd8, 0b00001111, []⟩ = .ok .hdAllOn := by decide
theorem test_word_all_off : decode ⟨.hd8, 0b00001000, []⟩ = .ok .hdAllOff := by decide

/-- The reserved request words of L2-9. -/
theorem test_reserved_request_words :
    ([0x0000, 0x0100, 0x1001, 0x1100, 0x3005, 0x4080, 0xAFFF, 0xB000, 0xF000].map fun w => (decode ⟨.req16, w, []⟩).toOption)
      = List.replicate 9 none := by decide

/-- The malformed GPIO words of L2-1 rows 11 to 13. -/
theorem test_malformed_gpio_words :
    ([0x79, 0x45, 0x81].map fun w => decode ⟨.gpio8, w, []⟩) = [.error .badLine, .error .bitTwoSet, .error .badKind] := by decide

/-- RW = 1 is never produced (R52, R53), and 0x03 is no command byte (R54). -/
theorem test_reserved_bus_words :
    decode ⟨.latch6, 0b010000, []⟩ = .error .rwHigh ∧ decode ⟨.bus10, 0x100, []⟩ = .error .rwHigh ∧
    decode ⟨.hd8, 0x03, []⟩ = .error .unknownCommand ∧ decode ⟨.latch6, 64, []⟩ = .error .tooWide := by decide

/-- A bare table word runs as the first instruction after reset. -/
theorem test_fetch_word_runs : decodeTableWord 16 0x1000 = some .init ∧ decodeTableWord 8 0x41 = some (.write .rs 1#2) := by
  decide

/-! ## The line primitives (L2-1) -/

theorem test_configure_en_output :
    (after (exec (.configure .en 1#2) (okFor 1 emptyState))).map
        (fun t => (t.returned, t.engine.trace, t.engine.lines.en, t.engine.lines.rs))
      = some (some .ok, [.cfg .en .output true], ⟨false, .output, some false⟩, Line.fresh) := by decide

theorem test_configure_en_fails :
    (after (exec (.configure .en 1#2) (failAfter 0 emptyState))).map
        (fun t => (t.returned, t.engine.trace, t.engine.lines.en))
      = some (some .eHwCfg, [.cfg .en .output false], Line.fresh) := by decide

theorem test_write_d7_high : seen (.write .d7 1#2) (okFor 1 (readyAt 0)) = some ⟨some .ok, 1, 0, [], 0, bits [0, 0, 0, 0, 1, 1, 1]⟩ := by
  decide

theorem test_write_unconfigured_d6 :
    (after (exec (.write .d6 1#2) emptyState)).map (fun t => (t.returned, t.engine.trace, t.engine.fault))
      = some (none, [], some (.writeNotOutput .d6)) := by decide

/-! ## Transmission (L2-2, L2-3) -/

theorem test_tx_nibble_a :
    (after (exec (.txNibble false 0xA#4) (okFor 7 (readyAt 0)))).map (fun t => (t.engine.trace, levels t.engine.lines))
      = some ([.wr .d4 false true, .wr .d5 true true, .wr .d6 false true, .wr .d7 true true, .wr .en false true, .dly 1,
          .wr .en true true, .dly 1, .wr .en false true, .dly 100], bits [0, 0, 0, 0, 1, 0, 1]) := by decide

theorem test_tx_nibble_closing_write_fails :
    (after (exec (.txNibble false 0xA#4) (failAfter 6 (readyAt 0)))).map
        (fun t => (t.returned, t.engine.trace.length, t.engine.lines.en.lvl))
      = some (some .eIo, 9, some true) := by decide

theorem test_tx_command_28 :
    seen (.txCommand 0x28#8) (okFor 16 (readyAt 0))
      = some ⟨some .ok, 22, 204, [latch false false 0x2#4, latch false false 0x8#4], 0, bits [0, 0, 0, 0, 0, 0, 1]⟩ := by
  decide +kernel

theorem test_tx_char_wraps :
    seen (.txChar 0x41#8) (okFor 16 (readyAt 79))
      = some ⟨some .ok, 22, 204, [latch true false 0x4#4, latch true false 0x1#4], 0, bits [1, 0, 0, 1, 0, 0, 0]⟩ := by
  decide +kernel

/-- The latches of the eleven command bytes alone (R54, R65, defaults of R8). -/
theorem test_command_bytes_latch :
    ([Instr.hdFunctionSet, .hdDisplayOnCursorOn, .hdClear, .hdEntryModeInc, .hdHome, .hdDisplayShiftLeft, .hdDisplayShiftRight,
        .hdCursorShiftLeft, .hdCursorShiftRight, .hdAllOn, .hdAllOff].map fun i =>
          (seen i (okFor 16 (readyAt 5))).map fun r => (r.status, r.latches, r.cursor))
      = ([(0x2#4, 0x8#4), (0x0#4, 0xE#4), (0x0#4, 0x1#4), (0x0#4, 0x6#4), (0x0#4, 0x2#4), (0x1#4, 0x8#4), (0x1#4, 0xC#4),
          (0x1#4, 0x0#4), (0x1#4, 0x4#4), (0x0#4, 0xF#4), (0x0#4, 0x8#4)].map fun n =>
            some (some Status.ok, [latch false false n.1, latch false false n.2], (5 : Fin 80))) := by decide +kernel

/-! ## INIT and DEINIT (L1-2, L2-4, L2-5) -/

theorem test_init :
    seen .init (okFor 108 emptyState)
      = some ⟨some .ok, 142, 1048324,
          [0x3#4, 0x3#4, 0x3#4, 0x2#4, 0x2#4, 0x8#4, 0x0#4, 0xE#4, 0x0#4, 0x1#4, 0x0#4, 0x6#4].map (latch false false), 0,
          bits [0, 0, 0, 0, 1, 1, 0]⟩ := by decide +kernel

/-- L2-4 row 5: the 43rd call fails, that is the 50th answer with the seven acquisitions. -/
theorem test_init_fails_late :
    (after (exec .init (failAfter 49 emptyState))).map
        (fun t => ((t.returned, t.engine.life, t.engine.trace.length), minTime t.engine.trace, levels t.engine.lines))
      = some ((some .eIo, .failed, 58), 45508, bits [0, 0, 0, 0, 1, 0, 0]) := by decide +kernel

theorem test_init_line_unavailable :
    (after (exec .init (failAfter 3 emptyState))).map
        (fun t => (t.returned, t.engine.life, t.engine.trace, t.engine.lines.en.acq, t.engine.lines.d4.acq))
      = some (some .eHwCfg, .failed, [], true, false) := by decide +kernel

theorem test_deinit :
    (after (exec .deinit (okFor 16 (readyAt 17)))).map (fun t => (t.returned, t.engine.life, t.engine.cursor, t.engine.trace.length))
      = some (some .ok, .tornDown, 0, 23) := by decide +kernel

theorem test_deinit_first_write_fails :
    (after (exec .deinit (failAfter 0 (readyAt 9)))).map
        (fun t => (t.returned, t.engine.life, t.engine.cursor, t.engine.trace))
      = some (some .eIo, .tornDown, 9, [.wr .rs false false]) := by decide +kernel

/-! ## Operations (L1-3, L1-5, L2-6 to L2-8) -/

theorem test_text_abc :
    seen (.text [0x41#8, 0x42#8, 0x43#8]) (okFor 48 (readyAt 78))
      = some ⟨some .ok, 66, 612, [0x4#4, 0x1#4, 0x4#4, 0x2#4, 0x4#4, 0x3#4].map (latch true false), 1,
          bits [1, 0, 0, 1, 1, 0, 0]⟩ := by decide +kernel

/-- L1-4: the 81st byte is dropped. -/
theorem test_text_truncates : textBytes (List.replicate 80 0x30#8 ++ [0x5A#8]) = List.replicate 80 0x30#8 := by decide

theorem test_clear :
    seen .clear (okFor 16 (readyAt 57))
      = some ⟨some .ok, 23, 2204, [latch false false 0x0#4, latch false false 0x1#4], 0, bits [0, 0, 0, 1, 0, 0, 0]⟩ := by
  decide +kernel

theorem test_clear_14th_call_fails :
    seen .clear (failAfter 13 (readyAt 9)) = some ⟨some .eIo, 17, 102, [latch false false 0x0#4], 9, bits [0, 0, 0, 1, 0, 0, 0]⟩ := by
  decide +kernel

theorem test_home :
    seen .home (okFor 16 (readyAt 33))
      = some ⟨some .ok, 23, 2204, [latch false false 0x0#4, latch false false 0x2#4], 0, bits [0, 0, 0, 0, 1, 0, 0]⟩ := by
  decide +kernel

theorem test_shift_left :
    seen .shiftLeft (okFor 16 (readyAt 5))
      = some ⟨some .ok, 23, 304, [latch false false 0x1#4, latch false false 0x8#4], 5, bits [0, 0, 0, 0, 0, 0, 1]⟩ := by
  decide +kernel

theorem test_shift_right :
    seen .shiftRight (okFor 16 (readyAt 79))
      = some ⟨some .ok, 23, 304, [latch false false 0x1#4, latch false false 0xC#4], 79, bits [0, 0, 0, 0, 0, 1, 1]⟩ := by
  decide +kernel

theorem test_on :
    seen .on (okFor 16 (readyAt 5))
      = some ⟨some .ok, 23, 304, [latch false false 0x0#4, latch false false 0xF#4], 5, bits [0, 0, 0, 1, 1, 1, 1]⟩ := by
  decide +kernel

theorem test_off :
    seen .off (okFor 16 (readyAt 5))
      = some ⟨some .ok, 23, 304, [latch false false 0x0#4, latch false false 0x8#4], 5, bits [0, 0, 0, 0, 0, 0, 1]⟩ := by
  decide +kernel

/-- L1-5: three steps left. -/
theorem test_cursor_13_to_10 :
    (seen (.cursor 10#8) (okFor 48 (readyAt 13))).map (fun r => (r.status, r.events, r.leastTime, r.cursor))
      = some (some .ok, 66, 612, 10) := by decide +kernel

/-- L2-8 row 1: the 17th call fails. -/
theorem test_cursor_second_step_fails :
    seen (.cursor 13#8) (failAfter 16 (readyAt 10))
      = some ⟨some .eIo, 23, 204, [latch false false 0x1#4, latch false false 0x4#4], 11, bits [0, 0, 0, 0, 0, 1, 0]⟩ := by
  decide +kernel

/-! ## Guard and surfaces (L2-10) -/

/-- Rows 1, 2: a request in CONSTRUCTED. -/
theorem test_text_before_init :
    (after (step (asks [.admitOne 0] (waiting [⟨1, .text [0x41#8]⟩] emptyState)))).map (fun t => (t.replies, t.engine.fault, t.engine.trace))
      = some ([⟨1, .status .eState⟩], some (.lifecycleViolation (.text [0x41#8])), []) := by decide +kernel

/-- Rows 4 to 6: `blink`, `clear` with a newline and `Clear` are no keywords. -/
theorem test_unknown_keywords :
    ([[0x62#8, 0x6C#8, 0x69#8, 0x6E#8, 0x6B#8], kwClear ++ [0x0A#8], [0x43#8, 0x6C#8, 0x65#8, 0x61#8, 0x72#8]].map fun k =>
        (after (step (asks [.surface 1 (.cmd k)] (readyAt 0)))).map fun t => (t.replies, t.engine.pending))
      = List.replicate 3 (some ([⟨1, .status .eArg⟩], [])) := by decide +kernel

/-- Row 7. -/
theorem test_cancel_pending_clear :
    (after (step (asks [.cancel 0] (waiting [⟨1, .clear⟩] (readyAt 4))))).map
        (fun t => (t.replies, t.engine.cursor, t.engine.trace, t.engine.pending))
      = some ([⟨1, .status .eIntr⟩], 4, [], []) := by decide +kernel

/-- L2-8 row 4: a cursor target of 80 in FAILED. -/
theorem test_argument_error_in_failed :
    (after (step (asks [.submit 1 0xA050#16 []] { emptyState with engine := { Engine.fresh [] with life := .failed } }))).map
        (fun t => (t.replies, t.engine.fault))
      = some ([⟨1, .status .eArg⟩], none) := by decide +kernel

/-- The label of ordinal 10 (10_state.md R25): `l1602-10`. -/
theorem test_default_label : defaultLabel 10 = [0x6C#8, 0x31#8, 0x36#8, 0x30#8, 0x32#8, 0x2D#8, 0x31#8, 0x30#8] := by decide

/-- The one label whose decimal begins with a zero (R25). -/
theorem test_default_label_0 : defaultLabel 0 = [0x6C#8, 0x31#8, 0x36#8, 0x30#8, 0x32#8, 0x2D#8, 0x30#8] := by decide

/-- `cursor 38 ; comment` and an unknown line (R55). -/
theorem test_assembly :
    assembleLine (kwCursor ++ [0x20#8, 0x33#8, 0x38#8, 0x20#8, 0x3B#8, 0x21#8]) = some (some ⟨.req16, 0xA026, []⟩) ∧
    assembleLine (kwCursor ++ [0x20#8, 0x32#8, 0x35#8, 0x36#8]) = none ∧ assembleLine [0x3B#8] = some none := by decide

/-! ## Witnesses: every hypothesis of every statement is met by something -/

theorem outputs_ready : Outputs readyLines := by intro r; cases r <;> rfl

/-- A paired trace and its engine: what INIT leaves. -/
def initialized : State :=
  { emptyState with
    engine :=
      { Engine.fresh [] with lines := linesAfterInit Config.commandBytes, life := .ready, trace := initEvents Config.commandBytes } }

theorem witness_DecodeOfEncode : CommandBytes.hd44780.Distinct := by decide

/-- A word without a payload and a TEXT. -/
theorem witness_EncodeOfDecode :
    decodeWith CommandBytes.hd44780 ⟨.bus10, 0x241, []⟩ = .ok (.txChar 0x41#8) ∧
    decodeWith CommandBytes.hd44780 ⟨.req16, 0x3000, [0x41#8]⟩ = .ok (.text [0x41#8]) := by decide

/-- The clauses at their boundary words: RSV, CURSOR, OP 1 and OP 9, an argument, and OP 0, 11 and 15. -/
theorem witness_RequestWordDecoding :
    (0x1100#16).extractLsb' 8 4 ≠ 0#4 ∧
    ((0xA0FF#16).extractLsb' 8 4 = 0#4 ∧ ((0xA0FF#16).extractLsb' 12 4).toNat = 10) ∧
    ((0x1000#16).extractLsb' 8 4 = 0#4 ∧ ((0x1000#16).extractLsb' 12 4).toNat = 1 ∧ (0x1000#16).extractLsb' 0 8 = 0#8) ∧
    ((0x9000#16).extractLsb' 8 4 = 0#4 ∧ ((0x9000#16).extractLsb' 12 4).toNat = 9 ∧ (0x9000#16).extractLsb' 0 8 = 0#8) ∧
    (((0x3005#16).extractLsb' 12 4).toNat ≠ 10 ∧ (0x3005#16).extractLsb' 0 8 ≠ 0#8) ∧
    ((0x0000#16).extractLsb' 12 4).toNat = 0 ∧ 11 ≤ ((0xB000#16).extractLsb' 12 4).toNat ∧
    11 ≤ ((0xF000#16).extractLsb' 12 4).toNat := by decide

/-- Both clauses: a word that decodes and words of two formats that do not. -/
theorem witness_StepRunsThePresentedWord :
    (drives ⟨.gpio8, 0x11, []⟩ emptyState).bench = some ⟨.gpio8, 0x11, []⟩ ∧
    decode ⟨.gpio8, 0x11, []⟩ = .ok (.configure .en 1#2) ∧
    (drives ⟨.gpio8, 0x79, []⟩ emptyState).bench = some ⟨.gpio8, 0x79, []⟩ ∧ decode ⟨.gpio8, 0x79, []⟩ = .error .badLine ∧
    decode ⟨.hd8, 0x03, []⟩ = .error .unknownCommand := by decide

/-- The second of two, answered with a status; and a request that ends without one, on a line that is no output. -/
theorem witness_StepAdmitsAPendingRequest :
    let s := asks [.admitOne 1] (waiting [⟨1, .clear⟩, ⟨2, .home⟩] (failAfter 0 (readyAt 0)))
    let u := asks [.admitOne 0] (waiting [⟨1, .clear⟩] { readyAt 0 with engine := { (readyAt 0).engine with lines := .fresh } })
    s.bench = none ∧ s.engine.pending = [⟨1, .clear⟩] ++ ⟨2, .home⟩ :: [] ∧
    s.inputs = .admitOne ([⟨1, .clear⟩] : List Pending).length :: [] ∧
    (after (exec .home s)).map (fun t => t.returned) = some (some .eIo) ∧
    u.bench = none ∧ u.engine.pending = [] ++ ⟨1, .clear⟩ :: [] ∧ u.inputs = .admitOne ([] : List Pending).length :: [] ∧
    (after (exec .clear u)).map (fun t => t.returned) = some none := by decide +kernel

theorem witness_CancellationOnlyAbandons :
    (waiting [⟨1, .clear⟩, ⟨2, .home⟩] (asks [.cancel 0] (readyAt 0))).bench = none ∧
    (waiting [⟨1, .clear⟩, ⟨2, .home⟩] (asks [.cancel 0] (readyAt 0))).engine.pending = [] ++ ⟨1, .clear⟩ :: [⟨2, .home⟩] ∧
    (waiting [⟨1, .clear⟩, ⟨2, .home⟩] (asks [.cancel 0] (readyAt 0))).inputs = .cancel ([] : List Pending).length :: [] := by decide

/-- Two engines, of which the inputs concern the second. -/
def twoEngines : State :=
  { readyAt 0 with nextOrdinal := 2, others := [⟨{ (readyAt 5).engine with pending := [⟨1, .clear⟩] }, ⟨[], 1, 0⟩⟩] }

/-- Nothing pending, and a request pending in an engine that the inputs do not concern. -/
theorem witness_EngineTurnAdmitsSomePendingRequest :
    ((readyAt 0).bench = none ∧ (readyAt 0).inputs = [] ∧ ∀ d ∈ displays (readyAt 0), d.engine.pending = []) ∧
    twoEngines.bench = none ∧ twoEngines.inputs = [] ∧ ∃ d ∈ displays twoEngines, d.engine.pending ≠ [] := by decide

/-- A request pending in an engine that the inputs do not concern is served, and the engine they did concern is kept (R104). -/
theorem test_other_engine_proceeds :
    ∃ t, step twoEngines = .next t ∧ t.engine.pending = [] ∧ t.oracle.stream = 1 ∧
      t.others = [⟨(readyAt 0).engine, Oracle.fresh 0⟩] := by
  refine ⟨_, step_eq _, ?_⟩
  rw [stepState_agents rfl, show agentsState twoEngines = enginesState twoEngines from rfl]
  rcases enginesState_cases twoEngines with ⟨h, _⟩ | ⟨j, d, hj, hp, ht, he⟩
  · exact absurd h (by decide)
  · match j, hj, ht, he with
    | 0, hj, _, _ => cases hj; exact absurd rfl hp
    | 1, hj, ht, he =>
      cases hj
      rw [he, ht]
      simp only [admitSomeState, admitState, drawn, twoEngines, pickFrom, List.length_singleton, Nat.mod_one]
      simp [execState_frame, displays]
      rfl
    | j + 2, hj, _, _ => cases hj

theorem witness_PresentedRequestIsSubmittedThenAdmitted :
    argumentOk (.cursor 79#8) = true ∧ argumentOk (.text []) = true ∧ argumentOk (.cursor 80#8) = false := by decide

theorem witness_FetchWordRunsNext : decodeTableWord 16 0x1000 = some .init := by decide

/-- Both clauses, the second at the targets 79 and 80. -/
theorem witness_SubmissionChecksTheRequest :
    (readyAt 0).bench = none ∧ (asks [.submit 1 0xF000#16 []] (readyAt 0)).inputs = .submit 1 0xF000#16 [] :: [] ∧
    decodeReq16 0xF000#16 [] = .error .reservedOp ∧ decodeReq16 0xA04F#16 [] = .ok (.cursor 79#8) ∧
    decodeReq16 0xA050#16 [] = .ok (.cursor 80#8) := by decide

/-- Every surface, with a keyword and with none. -/
theorem witness_SurfacesMapToTheirRequests :
    (readyAt 0).bench = none ∧ (asks [.surface 1 (.cmd kwOff)] (readyAt 0)).inputs = .surface 1 (.cmd kwOff) :: [] ∧
    ([] : List Byte) ∉ [kwClear, kwHome, kwShiftLeft, kwShiftRight, kwOn, kwOff] ∧
    (asks [.surface 1 (.text [0#8])] (readyAt 0)).inputs = .surface 1 (.text [0#8]) :: [] ∧
    (asks [.surface 1 (.cursor 255#8)] (readyAt 0)).inputs = .surface 1 (.cursor 255#8) :: [] ∧
    (asks [.surface 1 .probe] emptyState).inputs = .surface 1 .probe :: [] ∧
    (asks [.surface 1 .removal] (readyAt 0)).inputs = .surface 1 .removal :: [] := by decide

theorem witness_ReadableSurfacesOnlyAnswer :
    emptyState.bench = none ∧ (asks [.readKeywords 1] emptyState).inputs = .readKeywords 1 :: [] ∧
    (asks [.readLabel 1] emptyState).inputs = .readLabel 1 :: [] := by decide

theorem witness_ConstructionMakesAFreshEngine :
    (readyAt 0).bench = none ∧ (asks [.construct none] (readyAt 0)).inputs = .construct none :: [] ∧
    (asks [.construct (some [0x61#8])] (readyAt 0)).inputs = .construct (some [0x61#8]) :: [] := by decide

/-- The values 2 and 3, both directions, and both answers. -/
theorem witness_ConfigureSetsTheDirection :
    2 ≤ (2#2).toNat ∧ 2 ≤ (3#2).toNat ∧ ((0#2 : BitVec 2) = 0#2 ∧ Direction.input = .input) ∧
    ((1#2 : BitVec 2) = 1#2 ∧ Direction.output = .output) ∧ nextAnswer (okFor 1 emptyState).oracle = true ∧
    nextAnswer (failAfter 0 emptyState).oracle = false := by decide

theorem witness_WriteDrivesTheLevel :
    2 ≤ (2#2).toNat ∧ (0#2 = BitVec.ofNat 2 false.toNat) ∧ (1#2 = BitVec.ofNat 2 true.toNat) ∧
    (lineOf (okFor 1 (readyAt 0)).engine.lines .d7).dir = .output ∧ nextAnswer (okFor 1 (readyAt 0)).oracle = true ∧
    nextAnswer (failAfter 0 (readyAt 0)).oracle = false := by decide

theorem witness_WriteToNonOutputSetsTheFault : (1#2).toNat < 2 ∧ (lineOf emptyState.engine.lines .d6).dir ≠ .output := by decide

theorem witness_LineCallsReachOneLine :
    Role.rs ≠ .en ∧ (after (exec (.configure .en 1#2) (okFor 1 emptyState))).isSome = true ∧
    (after (exec (.write .en 1#2) (okFor 1 (readyAt 0)))).isSome = true := by decide

theorem witness_NibbleTransmissionCompletes :
    (∀ r ∈ [Role.en, .d4, .d5, .d6, .d7], (lineOf (okFor 7 (readyAt 0)).engine.lines r).dir = .output) ∧
    reliable 7 (okFor 7 (readyAt 0)).oracle = true := by decide

/-- Also of ShiftAndSwitchOperationsComplete and ClearAndHomeComplete, and the lifecycle they ask for. -/
theorem witness_ByteTransmissionCompletes :
    Outputs (okFor 16 (readyAt 0)).engine.lines ∧ reliable 16 (okFor 16 (readyAt 0)).oracle = true ∧
    (okFor 16 (readyAt 0)).engine.life = .ready := ⟨outputs_ready, by decide, rfl⟩

theorem witness_ShiftAndSwitchOperationsComplete :
    (okFor 16 (readyAt 79)).engine.life = .ready ∧ Outputs (okFor 16 (readyAt 79)).engine.lines ∧
    reliable 16 (okFor 16 (readyAt 79)).oracle = true := ⟨rfl, outputs_ready, by decide⟩

theorem witness_ClearAndHomeComplete :
    (okFor 16 (readyAt 57)).engine.life = .ready ∧ Outputs (okFor 16 (readyAt 57)).engine.lines ∧
    reliable 16 (okFor 16 (readyAt 57)).oracle = true := ⟨rfl, outputs_ready, by decide⟩

theorem witness_TransmissionLatchesItsNibbles : readyLines.en.lvl ≠ some true ∧ LineSet.fresh.en.lvl ≠ some true := by decide

/-- An empty text and one of two bytes. -/
theorem witness_TextCompletes :
    (okFor 32 (readyAt 3)).engine.life = .ready ∧ Outputs (okFor 32 (readyAt 3)).engine.lines ∧
    reliable (16 * min [0x41#8, 0x42#8].length 80) (okFor 32 (readyAt 3)).oracle = true ∧
    reliable (16 * min ([] : List Byte).length 80) (readyAt 3).oracle = true := ⟨rfl, outputs_ready, by decide, rfl⟩

/-- Right by two cells, and no move at all. -/
theorem witness_CursorCompletes :
    (okFor 32 (readyAt 77)).engine.life = .ready ∧ Outputs (okFor 32 (readyAt 77)).engine.lines ∧
    reliable (16 * ((79 - 77) + (77 - 79))) (okFor 32 (readyAt 77)).oracle = true ∧
    reliable (16 * ((77 - 77) + (77 - 77))) (readyAt 77).oracle = true := ⟨rfl, outputs_ready, by decide, rfl⟩

theorem witness_InitCompletes :
    (okFor 108 emptyState).engine.life = .constructed ∧ reliable 108 (okFor 108 emptyState).oracle = true := by decide +kernel

theorem witness_InitLatchesTheResetPattern :
    (okFor 108 emptyState).engine.life = .constructed ∧ (okFor 108 emptyState).engine.trace = [] ∧
    reliable 108 (okFor 108 emptyState).oracle = true := by decide +kernel

/-- The first and the last call of a command. -/
theorem witness_FailedWriteEndsACommand :
    (readyAt 9).engine.life = .ready ∧ Outputs (readyAt 9).engine.lines ∧ failsAt 0 (failAfter 0 (readyAt 9)).oracle = true ∧
    failsAt 15 (failAfter 15 (readyAt 9)).oracle = true := ⟨rfl, outputs_ready, by decide, by decide⟩

theorem witness_FailedWriteEndsATransmission :
    Outputs (failAfter 6 (readyAt 0)).engine.lines ∧ failsAt 6 (failAfter 6 (readyAt 0)).oracle = true ∧
    failsAt 15 (failAfter 15 (readyAt 0)).oracle = true ∧ (Instr.hdClear, 0x01#8) ∈ hdCommands Config.commandBytes :=
  ⟨outputs_ready, by decide, by decide, by decide⟩

/-- The last call of the first and the first call of the second character. -/
theorem witness_FailedWriteEndsAText :
    (readyAt 5).engine.life = .ready ∧ Outputs (readyAt 5).engine.lines ∧ 16 < 16 * min [0x41#8, 0x42#8].length 80 ∧
    failsAt 15 (failAfter 15 (readyAt 5)).oracle = true ∧ failsAt 16 (failAfter 16 (readyAt 5)).oracle = true :=
  ⟨rfl, outputs_ready, by decide, by decide, by decide⟩

theorem witness_FailedWriteEndsACursorMove :
    (readyAt 10).engine.life = .ready ∧ Outputs (readyAt 10).engine.lines ∧ 16 < 16 * ((13 - 10) + (10 - 13)) ∧
    failsAt 16 (failAfter 16 (readyAt 10)).oracle = true := ⟨rfl, outputs_ready, by decide, by decide⟩

/-- The boundaries of the three phases: the answers 0, 6, 7, 13, 14 and 107, and 91 and 92 beside the cursor's reset. -/
theorem witness_FailedInitLeavesFailed :
    emptyState.engine.life = .constructed ∧
    ∀ k ∈ [0, 6, 7, 13, 14, 91, 92, 107], k < 108 ∧ failsAt k (failAfter k emptyState).oracle = true := by decide +kernel

/-- A successful instruction, one ended by a failed write and one ended by a failed configuration (also of StatusAndFaultAgree,
LifecycleTransitions and the frame statements). -/
theorem witness_OnlyTheLastEventCanFail :
    (after (exec .clear (okFor 16 (readyAt 5)))).map (fun t => t.returned) = some (some .ok) ∧
    (after (exec .clear (failAfter 3 (readyAt 5)))).map (fun t => t.returned) = some (some .eIo) ∧
    (after (exec .init (failAfter 9 emptyState))).map (fun t => t.returned) = some (some .eHwCfg) := by decide +kernel

/-- Lines of which D6 alone is no output: a nibble stops there, and so does a byte. -/
def d6Input : State := okFor 16 { readyAt 0 with engine := { (readyAt 0).engine with lines := { readyLines with d6 := Line.fresh } } }

theorem witness_NonOutputLineEndsATransmission :
    (nibbleEvents 0xF#4)[(beforeNonOutput d6Input.engine.lines (nibbleEvents 0xF#4)).length]? = some (.wr .d6 true true) ∧
    reliable (callCount (beforeNonOutput d6Input.engine.lines (nibbleEvents 0xF#4))) d6Input.oracle = true ∧
    (byteEvents true 0xF0#8)[(beforeNonOutput d6Input.engine.lines (byteEvents true 0xF0#8)).length]? = some (.wr .d6 true true) ∧
    reliable (callCount (beforeNonOutput d6Input.engine.lines (byteEvents true 0xF0#8))) d6Input.oracle = true ∧
    (Instr.hdAllOn, 0x0F#8) ∈ hdCommands Config.commandBytes ∧
    (byteEvents false 0x0F#8)[(beforeNonOutput d6Input.engine.lines (byteEvents false 0x0F#8)).length]? = some (.wr .d6 false true) ∧
    reliable (callCount (beforeNonOutput d6Input.engine.lines (byteEvents false 0x0F#8))) d6Input.oracle = true := by
  decide +kernel

/-- Both clauses: an instruction without a status and one with. -/
theorem witness_StatusAndFaultAgree :
    (after (exec (.write .d6 1#2) emptyState)).map (fun t => t.returned) = some none ∧
    (after (exec .clear emptyState)).map (fun t => t.returned) = some (some .eState) := by decide

theorem witness_ForbiddenRequestIsAViolation :
    argumentOk (.cursor 5#8) = true ∧ lifeAllows .failed (.cursor 5#8) = false ∧ argumentOk .init = true ∧
    lifeAllows .ready .init = false := by decide

theorem witness_ArgumentErrorComesFirst : 80 ≤ (80#8).toNat ∧ 80 ≤ (255#8).toNat := by decide

/-- INIT that succeeds, INIT that fails, DEINIT, and an instruction that keeps the lifecycle. -/
theorem witness_LifecycleTransitions :
    (after (exec .init (okFor 108 emptyState))).map (fun t => t.engine.life) = some .ready ∧
    (after (exec .init (failAfter 0 emptyState))).map (fun t => t.engine.life) = some .failed ∧
    (after (exec .deinit (failAfter 0 (readyAt 9)))).map (fun t => t.engine.life) = some .tornDown ∧
    (after (exec .clear (okFor 16 (readyAt 5)))).map (fun t => t.engine.life) = some .ready := by decide +kernel

theorem witness_AllowedRequestsReturnAStatus :
    argumentOk .init = true ∧ lifeAllows emptyState.engine.life .init = true ∧
    lifeAllows (readyAt 0).engine.life (.cursor 79#8) = true ∧ argumentOk (.cursor 79#8) = true ∧
    Outputs (readyAt 0).engine.lines := ⟨rfl, rfl, rfl, rfl, outputs_ready⟩

theorem witness_InstructionsLeaveTheOtherAgentsAlone :
    ∃ t, exec .home (okFor 16 (readyAt 5)) = .next t := ⟨_, rfl⟩

theorem witness_OnlyCursorOperationsMoveTheCursor :
    (after (exec (.txChar 0x41#8) (okFor 16 (readyAt 5)))).map (fun t => t.engine.cursor) = some 6 ∧
    (readyAt 5).engine.cursor = 5 := by decide +kernel

theorem witness_OnlyInitAndConfigureSetUpLines :
    (after (exec .init (failAfter 1 emptyState))).map (fun t => t.engine.lines.rs.acq) = some true ∧
    (after (exec (.configure .rs 0#2) (okFor 1 (readyAt 0)))).map (fun t => t.engine.lines.rs.dir) = some .input := by
  decide +kernel

/-- An admission beside another engine, a word driven alone, and a turn to the other engine. -/
theorem witness_EnginesAreIndependent :
    (∃ i rest, (asks [.admitOne 0] twoEngines).inputs = i :: rest ∧ changesEngine i = false) ∧
    (∃ t, step (asks [.admitOne 0] twoEngines) = .next t) ∧
    (drives ⟨.gpio8, 0x41, []⟩ twoEngines).bench ≠ none ∧ (∃ t, step (drives ⟨.gpio8, 0x41, []⟩ twoEngines) = .next t) ∧
    (asks [.turnTo 1] twoEngines).bench = none ∧ (asks [.turnTo 1] twoEngines).inputs = .turnTo 1 :: [] ∧
    ∃ t, step (asks [.turnTo 1] twoEngines) = .next t :=
  ⟨⟨_, _, rfl, rfl⟩, ⟨_, rfl⟩, by decide, ⟨_, rfl⟩, rfl, rfl, _, rfl⟩

/-- A request that runs, one that the lifecycle forbids, a construction and a submission. -/
theorem witness_OnlyAdmittedRequestsChangeAnEngine :
    ∀ s ∈ [asks [.admitOne 0] (waiting [⟨1, .clear⟩] (okFor 16 (readyAt 0))), asks [.admitOne 0] (waiting [⟨1, .clear⟩] emptyState),
        asks [.construct none] twoEngines, asks [.submit 1 0x4000#16 []] (readyAt 0)],
      s.bench = none ∧ ∃ t, step s = .next t := by
  intro s hs
  simp only [List.mem_cons, List.not_mem_nil, or_false] at hs
  rcases hs with rfl | rfl | rfl | rfl <;> exact ⟨rfl, _, rfl⟩

/-- A property of the only engine. -/
theorem everyEngine_alone {P : Engine → Prop} {s : State} (h : s.others = []) (hp : P s.engine) : EveryEngine P s :=
  (everyEngine_iff ..).2 ⟨hp, by simp [h]⟩

theorem tracked_initialized : Tracked initialized.engine := by
  intro r
  cases r <;> exact ⟨rfl, rfl⟩

theorem witness_StepKeepsLevelsTracked :
    EveryEngine Tracked (okFor 16 (drives ⟨.gpio8, 0x18, []⟩ initialized)) ∧
    ∃ t, step (okFor 16 (drives ⟨.gpio8, 0x18, []⟩ initialized)) = .next t :=
  ⟨everyEngine_alone rfl tracked_initialized, _, rfl⟩

theorem witness_StepKeepsOutputLevels :
    EveryEngine OutputsHoldLevels (failAfter 0 (drives ⟨.gpio8, 0x41, []⟩ (readyAt 0))) ∧
    ∃ t, step (failAfter 0 (drives ⟨.gpio8, 0x41, []⟩ (readyAt 0))) = .next t :=
  ⟨everyEngine_alone rfl fun r _ => by cases r <;> rfl, _, rfl⟩

/-- READY, with a request pending and one still to be submitted. -/
def busy : State :=
  okFor 16 (asks [.admitOne 0, .submit 2 0xA04F#16 []] (waiting [⟨1, .cursor 1#8⟩] initialized))

theorem requestsOnly_busy : RequestsOnly busy where
  bench := rfl
  engines := everyEngine_alone rfl
    { usable := fun _ r => by cases r <;> exact ⟨rfl, rfl, rfl⟩
      untouched := fun h => by cases h
      arguments := by decide
      events := by decide +kernel
      noBadWrite := fun r h => by cases h }

theorem witness_StepKeepsEnginesUsable : RequestsOnly busy ∧ ∃ t, step busy = .next t := ⟨requestsOnly_busy, _, rfl⟩

theorem paired_busy : EveryEngine Paired busy := by
  refine everyEngine_alone rfl fun _ => ⟨by decide, ?_⟩
  exact ⟨[(false, 0x28#8), (false, 0x0E#8), (false, 0x01#8), (false, 0x06#8)], by decide +kernel⟩

theorem witness_StepKeepsLatchesPaired :
    RequestsOnly busy ∧ EveryEngine Tracked busy ∧ EveryEngine Paired busy ∧ NoFailedCall busy.engine.trace ∧
    ∃ t, step busy = .next t :=
  ⟨requestsOnly_busy, everyEngine_alone rfl tracked_initialized, paired_busy,
    fun ev h => (by decide +kernel : ∀ ev ∈ busy.engine.trace, callFailed ev = false) ev h, _, rfl⟩

/-- Two callers, the second admitted first. -/
theorem witness_ConcurrentTextsAreSerialized :
    let ps : List Pending := [⟨1, .text [0x41#8]⟩, ⟨2, .text [0x41#8]⟩]
    let s := asks ([1, 0].map .admitOne) (waiting ps (okFor 32 (readyAt 78)))
    s.bench = none ∧ s.engine.life = .ready ∧ Outputs s.engine.lines ∧ (∀ p ∈ s.engine.pending, p.request = .text [0x41#8]) ∧
    [1, 0].length = s.engine.pending.length ∧ s.inputs = [1, 0].map .admitOne ∧ reliable (16 * 2) s.oracle = true :=
  ⟨rfl, rfl, outputs_ready, by decide, rfl, rfl, by decide⟩

end Sys2Proof.Tests
end

section
/-! PROOFS. What every step keeps of the engines: levels tracked by the trace, and, under requests alone, usable lines. -/

namespace Sys2Proof.Machine

/-! ## Every engine's levels are those of its trace -/

theorem tracked_fresh (l : List Byte) : Tracked (Engine.fresh l) := fun _ => ⟨rfl, rfl⟩

theorem execState_tracked (i : Instr) (s : State) (h : Tracked s.engine) : Tracked (execState i s).engine :=
  execState_engine h (fun body _ _ => runActions_tracked body s.engine s.oracle h) (fun _ _ _ => h)

/-- Settles O51: no instruction loses the agreement of lines and trace, and no other step touches either but construction. -/
theorem stepKeepsLevelsTracked : Obligations.StepKeepsLevelsTracked := by
  intro s t h ht
  obtain rfl := (step_next_iff s t).1 ht
  exact stepState_everyEngine (fun _ _ h => h) tracked_fresh execState_tracked s h

/-! ## Allowed requests -/

/-- The table of 44_dispatch.md R85. -/
theorem lifeAllows_iff (l : Life) (d : Request) :
    lifeAllows l d = true ↔ (l = .constructed ∧ d = .init) ∨ (l = .ready ∧ d ≠ .init) := by
  cases l <;> cases d <;> simp [lifeAllows]

theorem toInstr_eq_init (r : Request) : r.toInstr = .init ↔ r = .init := by cases r <;> simp [Request.toInstr]

/-- An allowed request is INIT in CONSTRUCTED with INIT's body, or in READY a list of waits, cursor moves and writes. -/
theorem allowed_body {r : Request} {s : State} {body : List Action} (ha : lifeAllows s.engine.life r = true)
    (hb : bodyOf r.toInstr s.engine.cursor = some body) :
    (s.engine.life = .constructed ∧ r = .init ∧ body = initBody Config.commandBytes) ∨
      (s.engine.life = .ready ∧ r ≠ .init ∧ ∀ a ∈ body, operationAction a) := by
  rcases (lifeAllows_iff _ _).1 ha with ⟨hl, rfl⟩ | ⟨hl, hr⟩
  · exact .inl ⟨hl, rfl, (Option.some.inj hb).symm⟩
  · exact .inr ⟨hl, hr, fun _ => operationAction_body (requestOf_toInstr r) (mt (toInstr_eq_init r).1 hr) hb⟩

/-- The body of an allowed request writes outputs only, on a READY engine whose lines are outputs. -/
theorem allowed_writable {r : Request} {s : State} {body : List Action} (ha : lifeAllows s.engine.life r = true)
    (hb : bodyOf r.toInstr s.engine.cursor = some body) (ho : s.engine.life = .ready → Outputs s.engine.lines) :
    Writable body s.engine := by
  rcases allowed_body ha hb with ⟨_, _, rfl⟩ | ⟨hl, _, hop⟩
  · exact writable_initBody _ _
  · exact operationAction_writable hop (ho hl)

/-- An allowed request whose argument passes runs its body (44_dispatch.md R84). -/
theorem execState_allowed {r : Request} {s : State} {body : List Action} (ha : lifeAllows s.engine.life r = true)
    (hb : bodyOf r.toInstr s.engine.cursor = some body) :
    execState r.toInstr s = finish (lifeRule r.toInstr) (runActions body s.engine s.oracle) s := by
  simp only [execState, hb, requestOf_toInstr]
  exact admitted_allowed ha

/-- Settles O46: an allowed body writes outputs only, so its run ends with a status and keeps the fault; E_HWCFG needs an
acquisition or a configuration, which INIT's body alone has. -/
theorem allowedRequestsReturnAStatus : Obligations.AllowedRequestsReturnAStatus := by
  intro s r harg ha ho
  obtain ⟨body, hb⟩ := bodyOf_toInstr harg s.engine.cursor
  obtain ⟨hne, hfault⟩ := runActions_writable (o := s.oracle) (allowed_writable ha hb ho)
  refine ⟨_, exec_eq .., ?_⟩
  rw [execState_allowed ha hb, finish_returned]
  refine ⟨hfault, ?_⟩
  rcases runActions_ending body s.engine s.oracle with h | h | h | h
  · exact .inl (by rw [h]; rfl)
  · exact .inr (.inl (by rw [h]; rfl))
  · rcases allowed_body ha hb with ⟨_, hr, _⟩ | ⟨_, _, hop⟩
    · exact .inr (.inr ⟨hr, by rw [h]; rfl⟩)
    · obtain ⟨hacq, hcfg⟩ := operationAction_setup hop
      exact absurd h (runActions_no_hwCfg hacq hcfg s.engine s.oracle)
  · exact absurd h hne

/-! ## Engines that requests alone drive -/

/-- An action some request's body may hold: an acquisition, a configuration as an output, or one of an operation after INIT. -/
def RequestAction (a : Action) : Prop :=
  (∃ r, a = .acquire r) ∨ (∃ r, a = .configure r .output) ∨ operationAction a

theorem requestAction_body {r : Request} {s : State} {body : List Action} (ha : lifeAllows s.engine.life r = true)
    (hb : bodyOf r.toInstr s.engine.cursor = some body) : ∀ a ∈ body, RequestAction a := by
  rcases allowed_body ha hb with ⟨_, _, rfl⟩ | ⟨_, _, hop⟩
  · exact fun a h => mem_initBody h
  · exact fun a h => .inr (.inr (hop a h))

/-- Only allowed events are in the trace. -/
def EventsAllowed (e : Engine) : Prop := ∀ ev ∈ e.trace, eventAllowed ev = true

theorem eventsAllowed_logEvent {ev : Event} {e : Engine} (h : EventsAllowed e) (hev : eventAllowed ev = true) :
    EventsAllowed (logEvent ev e) := by
  intro x hx
  rcases List.mem_append.1 hx with hx | hx
  · exact h x hx
  · rwa [List.mem_singleton.1 hx]

theorem doAction_eventsAllowed {a : Action} (ha : RequestAction a) (e : Engine) (o : Oracle) (h : EventsAllowed e) :
    EventsAllowed (doAction a e o).engine := by
  rcases ha with ⟨r, rfl⟩ | ⟨r, rfl⟩ | ⟨t, rfl⟩ | ⟨m, rfl⟩ | ⟨r, v, rfl, hv⟩
  · simp only [doAction, acquireLine]
    split <;> exact h
  · have hlog := eventsAllowed_logEvent (ev := .cfg r .output (nextAnswer o)) h rfl
    simp only [doAction, configureLine]
    split <;> exact hlog
  · exact eventsAllowed_logEvent h rfl
  · exact h
  · have hlog := eventsAllowed_logEvent (ev := .wr r v (nextAnswer o)) h (by
      cases r with
      | rw => simp [eventAllowed, hv rfl]
      | _ => rfl)
    simp only [doAction, writeLine]
    split
    · split <;> exact hlog
    · exact h

theorem runActions_eventsAllowed {as : List Action} (ha : ∀ a ∈ as, RequestAction a) (e : Engine) (o : Oracle)
    (h : EventsAllowed e) : EventsAllowed (runActions as e o).engine :=
  runActions_induct (fun a hm => doAction_eventsAllowed (ha a hm)) e o h

/-- An operation after INIT leaves usable lines usable. -/
theorem doAction_usable {a : Action} (ha : operationAction a) (e : Engine) (o : Oracle) (h : Usable e.lines) :
    Usable (doAction a e o).engine.lines := by
  rcases ha with ⟨t, rfl⟩ | ⟨m, rfl⟩ | ⟨r, v, rfl, _⟩
  · exact h
  · exact h
  · have hdriven : Usable (onLine r (lineDriven v) e).lines := by
      intro q
      rw [onLine_lines, lineOf_setLine]
      split
      · exact ⟨(h r).1, (h r).2.1, rfl⟩
      · exact h q
    simp only [doAction, writeLine]
    split
    · split
      · exact hdriven
      · exact h
    · exact h

theorem runActions_usable {as : List Action} (ha : ∀ a ∈ as, operationAction a) (e : Engine) (o : Oracle)
    (h : Usable e.lines) : Usable (runActions as e o).engine.lines :=
  runActions_induct (P := fun e => Usable e.lines) (fun a hm => doAction_usable (ha a hm)) e o h

theorem operationAction_powerOnSequence {c : CommandBytes} {a : Action} (h : a ∈ powerOnSequence c) : operationAction a := by
  rcases mem_initBody (List.mem_append_right (acquireAll ++ configureAll) h) with ⟨r, rfl⟩ | ⟨r, rfl⟩ | h'
  · simp [powerOnSequence, clearBody, txCommand, txByte, txNibble] at h
  · simp [powerOnSequence, clearBody, txCommand, txByte, txNibble] at h
  · exact h'

theorem usable_linesConfigured : Usable linesConfigured := by intro r; cases r <;> exact ⟨rfl, rfl, rfl⟩

/-- A run that comes to its end came to the end of every part. -/
theorem runActions_append_ending {as bs : List Action} {e : Engine} {o : Oracle}
    (h : (runActions (as ++ bs) e o).ending = .done) : (runActions as e o).ending = .done := by
  rw [runActions_append] at h
  split at h
  · assumption
  · exact h
  · exact h

theorem doAction_done {a : Action} {e : Engine} {o : Oracle} (h : (doAction a e o).ending = .done) :
    (doAction a e o).engine = applyAction a e := by
  cases a with
  | acquire r =>
    simp only [doAction, acquireLine] at h ⊢
    split at h <;> simp_all [applyAction]
  | configure r d =>
    simp only [doAction, configureLine] at h ⊢
    split at h <;> simp_all [applyAction]
  | write r v =>
    simp only [doAction, writeLine] at h ⊢
    split at h
    · split at h <;> simp_all [applyAction]
    · simp at h
  | delay t => rfl
  | moveCursor m => rfl

/-- A run that comes to its end did all its actions. -/
theorem runActions_done {as : List Action} {e : Engine} {o : Oracle} (h : (runActions as e o).ending = .done) :
    (runActions as e o).engine = applyActions as e := by
  induction as generalizing e o with
  | nil => rfl
  | cons a as ih =>
    simp only [runActions] at h ⊢
    split at h
    · next hd => rw [applyActions_cons, ← doAction_done hd]; exact ih h
    · next hr => rw [hr] at h; cases h
    · next hn => rw [hn] at h; cases h

/-- An INIT that succeeds leaves every line usable (10_state.md R19). -/
theorem usable_initBody {c : CommandBytes} {e : Engine} {o : Oracle} (h : (runActions (initBody c) e o).ending = .done) :
    Usable (runActions (initBody c) e o).engine.lines := by
  have hd := runActions_append_ending h
  rw [initBody, runActions_append_done hd, runActions_done hd, applyActions_setUp]
  exact runActions_usable (fun _ => operationAction_powerOnSequence) _ _ usable_linesConfigured

theorem lifeRule_ne_constructed {l : Life} {r : Request} (ha : lifeAllows l r = true) (en : Ending) :
    lifeRule r.toInstr l en ≠ .constructed := by
  rcases (lifeAllows_iff _ _).1 ha with ⟨_, rfl⟩ | ⟨rfl, hr⟩
  · cases en <;> simp [Request.toInstr, lifeRule, lifeAfterInit]
  · cases r <;> simp_all [Request.toInstr, lifeRule, lifeAfterDeinit, lifeKept]

/-- An allowed request leaves a READY or TORN_DOWN engine with usable lines. -/
theorem usable_afterRequest {r : Request} {s : State} {body : List Action} (ha : lifeAllows s.engine.life r = true)
    (hb : bodyOf r.toInstr s.engine.cursor = some body) (h : s.engine.life = .ready → Usable s.engine.lines)
    (hl : lifeRule r.toInstr s.engine.life (runActions body s.engine s.oracle).ending = .ready ∨
      lifeRule r.toInstr s.engine.life (runActions body s.engine s.oracle).ending = .tornDown) :
    Usable (runActions body s.engine s.oracle).engine.lines := by
  rcases allowed_body ha hb with ⟨_, rfl, rfl⟩ | ⟨hready, _, hop⟩
  · refine usable_initBody ?_
    revert hl
    cases (runActions (initBody Config.commandBytes) s.engine s.oracle).ending <;>
      simp [Request.toInstr, lifeRule, lifeAfterInit]
  · exact runActions_usable hop _ _ (h hready)

/-- Every request, whatever the answers, keeps the invariant of an engine that requests alone drive. -/
theorem execState_engineInv (r : Request) (s : State) (h : EngineInv s.engine) :
    EngineInv (execState r.toInstr s).engine := by
  refine execState_engine h (fun body hb hallowed => ?_) fun d _ _ => { h with noBadWrite := fun q => by simp }
  have ha := hallowed r (requestOf_toInstr r)
  have hready : s.engine.life = .ready → Usable s.engine.lines := fun hl => h.usable (.inl hl)
  have hw := allowed_writable ha hb fun hl q => (hready hl q).2.1
  exact
    { usable := fun hl => usable_afterRequest ha hb hready (by simpa using hl)
      untouched := fun hl => absurd (by simpa using hl) (lifeRule_ne_constructed ha _)
      arguments := by simpa using h.arguments
      events := runActions_eventsAllowed (requestAction_body ha hb) _ _ h.events
      noBadWrite := by simpa [(runActions_writable (o := s.oracle) hw).2] using h.noBadWrite }

theorem engineInv_fresh (l : List Byte) : EngineInv (Engine.fresh l) where
  usable h := by simp [Engine.fresh] at h
  untouched _ := ⟨rfl, rfl⟩
  arguments p h := by simp [Engine.fresh] at h
  events ev h := by simp [Engine.fresh] at h
  noBadWrite r := by simp [Engine.fresh]

theorem engineInv_enqueue (e : Engine) (c : Caller) (r : Request) (h : EngineInv e) (hr : argumentOk r = true) :
    EngineInv { e with pending := e.pending ++ [⟨c, r⟩] } :=
  { h with
    arguments := fun p hp => by
      rcases List.mem_append.1 hp with hp | hp
      · exact h.arguments p hp
      · rwa [List.mem_singleton.1 hp] }

theorem engineInv_removePending (e : Engine) (before : List Pending) (p : Pending) (after : List Pending) (h : EngineInv e)
    (he : e.pending = before ++ p :: after) : EngineInv { e with pending := before ++ after } :=
  { h with
    arguments := fun q hq => h.arguments q (by
      rw [he]
      exact ((List.sublist_cons_self p after).append_left before).subset hq) }

/-- Settles O53: no agent drives a word alone, and each way an agent's step changes an engine keeps its invariant. -/
theorem stepKeepsEnginesUsable : Obligations.StepKeepsEnginesUsable := by
  intro s t h ht
  obtain rfl := (step_next_iff s t).1 ht
  rw [stepState_agents h.bench]
  exact
    { bench := (agentsState_bench s).trans h.bench
      engines := agentsState_everyEngine engineInv_enqueue engineInv_removePending engineInv_fresh execState_engineInv s
        h.engines }

end Sys2Proof.Machine
end

section
/-! PROOFS. What an instruction does to the lifecycle, the status, the fault, the trace, the cursor and the lines. -/

namespace Sys2Proof.Machine

/-! ## What no instruction touches -/

/-- Settles O47: an argument error, a violation and a run each leave the other agents' fields. -/
theorem instructionsLeaveTheOtherAgentsAlone : Obligations.InstructionsLeaveTheOtherAgentsAlone := by
  intro i s t ht
  obtain rfl := (exec_next_iff i s t).1 ht
  exact execState_frame i s

/-! ## The lifecycle -/

theorem execState_init {s : State} (h : s.engine.life = .constructed) :
    execState .init s = finish lifeAfterInit (runActions (initBody Config.commandBytes) s.engine s.oracle) s :=
  execState_allowed (r := .init) (by rw [h]; rfl) rfl

theorem execState_deinit {s : State} (h : s.engine.life = .ready) :
    execState .deinit s = finish lifeAfterDeinit (runActions (clearBody Config.commandBytes) s.engine s.oracle) s :=
  execState_allowed (r := .deinit) (by rw [h]; rfl) rfl

/-- INIT configures its lines before it writes them, so it ends with a status. -/
theorem initBody_ending (c : CommandBytes) (e : Engine) (o : Oracle) :
    (runActions (initBody c) e o).ending = .done ∨ (runActions (initBody c) e o).ending = .raised .eIo ∨
      (runActions (initBody c) e o).ending = .raised .eHwCfg := by
  have hne := (runActions_writable (o := o) (writable_initBody c e)).1
  rcases runActions_ending (initBody c) e o with h | h | h | h
  · exact .inl h
  · exact .inr (.inl h)
  · exact .inr (.inr h)
  · exact absurd h hne

theorem lifeRule_other {i : Instr} (hi : i ≠ .init) (hd : i ≠ .deinit) : lifeRule i = lifeKept := by
  cases i with
  | init => exact absurd rfl hi
  | deinit => exact absurd rfl hd
  | _ => rfl

/-- Any instruction but INIT from CONSTRUCTED and DEINIT from READY keeps the lifecycle. -/
theorem execState_life {i : Instr} {s : State} (hi : ¬(s.engine.life = .constructed ∧ i = .init))
    (hd : ¬(s.engine.life = .ready ∧ i = .deinit)) : (execState i s).engine.life = s.engine.life := by
  refine execState_engine (P := fun e => e.life = s.engine.life) rfl (fun body _ ha => ?_) fun _ _ _ => rfl
  have hi' : i ≠ .init := by
    rintro rfl
    exact hi ⟨((lifeAllows_iff _ _).1 (ha .init rfl)).elim And.left fun h => absurd rfl h.2, rfl⟩
  have hd' : i ≠ .deinit := by
    rintro rfl
    exact hd ⟨((lifeAllows_iff _ _).1 (ha .deinit rfl)).elim (fun h => by simp at h) And.left, rfl⟩
  simp [lifeRule_other hi' hd', lifeKept]

/-- Settles O45: INIT from CONSTRUCTED, DEINIT from READY, and every other instruction apart. -/
theorem lifecycleTransitions : Obligations.LifecycleTransitions := by
  intro i s t ht
  obtain rfl := (exec_next_iff i s t).1 ht
  by_cases hi : s.engine.life = .constructed ∧ i = .init
  · obtain ⟨hl, rfl⟩ := hi
    rw [execState_init hl]
    rcases initBody_ending Config.commandBytes s.engine s.oracle with h | h | h <;>
      simp [hl, h, endingStatus, lifeAfterInit]
  · refine ⟨?_, fun hl hinit => absurd ⟨hl, hinit⟩ hi⟩
    rw [if_neg hi]
    split
    · next hd =>
      obtain ⟨hl, rfl⟩ := hd
      rw [execState_deinit hl]
      rfl
    · next hd => exact execState_life hi hd

/-! ## Statuses, the fault and failed calls -/

theorem endingStatus_eq_none (en : Ending) : endingStatus en = none ↔ en = .notOutput := by
  cases en <;> simp [endingStatus]

/-- Settles O42: a run sets the fault exactly where it ends without a status, and a violation returns E_STATE. -/
theorem statusAndFaultAgree : Obligations.StatusAndFaultAgree := by
  intro i s t ht
  obtain rfl := (exec_next_iff i s t).1 ht
  rcases execState_cases i s with ⟨_, he⟩ | ⟨d, _, _, he⟩ | ⟨body, _, _, he⟩
  · rw [he]
    exact ⟨fun h => by simp [argumentError] at h, fun _ => .inl rfl⟩
  · rw [he]
    exact ⟨fun h => by simp [lifecycleViolation] at h, fun _ => .inr ⟨d, rfl, rfl⟩⟩
  · rw [he, finish_returned, Ne, endingStatus_eq_none]
    rcases runActions_fault body s.engine s.oracle with ⟨hne, hf⟩ | ⟨hn, hf⟩
    · exact ⟨fun h => absurd h hne, fun _ => .inl hf⟩
    · exact ⟨fun _ => hf, fun h => absurd hn h⟩

/-- The events of a run that ends so: a failed call is the last one, and its status is E_IO or E_HWCFG. -/
theorem TraceEnds.precise {evs : List Event} {en : Ending} (h : TraceEnds evs en) :
    NoFailedCall evs.dropLast ∧ (NoFailedCall evs → endingStatus en ≠ some .eIo) ∧
      (¬NoFailedCall evs → endingStatus en = some .eIo ∨ endingStatus en = some .eHwCfg) := by
  have clean : NoFailedCall evs → NoFailedCall evs.dropLast := fun hc ev hev => hc ev (List.mem_of_mem_dropLast hev)
  have failed : (∃ before ev, evs = before ++ [ev] ∧ NoFailedCall before ∧ callFailed ev = true) →
      NoFailedCall evs.dropLast ∧ ¬NoFailedCall evs := by
    rintro ⟨before, ev, rfl, hb, hev⟩
    refine ⟨by rwa [List.dropLast_concat], fun hc => ?_⟩
    simp [hc ev (by simp)] at hev
  match en, h with
  | .done, h => exact ⟨clean h, by simp [endingStatus], fun hn => absurd h hn⟩
  | .notOutput, h => exact ⟨clean h, by simp [endingStatus], fun hn => absurd h hn⟩
  | .raised .eIo, h => exact ⟨(failed h).1, fun hc => absurd hc (failed h).2, fun _ => .inl rfl⟩
  | .raised .eHwCfg, .inl h => exact ⟨clean h, by simp [endingStatus], fun hn => absurd h hn⟩
  | .raised .eHwCfg, .inr h => exact ⟨(failed h).1, fun hc => absurd hc (failed h).2, fun _ => .inr rfl⟩

/-- Settles O40: errors before a run append nothing, and a run's events end as its ending says. -/
theorem onlyTheLastEventCanFail : Obligations.OnlyTheLastEventCanFail := by
  intro i s t ht
  obtain rfl := (exec_next_iff i s t).1 ht
  rcases execState_cases i s with ⟨_, he⟩ | ⟨d, _, _, he⟩ | ⟨body, _, _, he⟩
  · rw [he]
    exact ⟨[], by simp [argumentError], by simp, by simp [argumentError], by simp⟩
  · rw [he]
    exact ⟨[], by simp [lifecycleViolation], by simp, by simp [lifecycleViolation], by simp⟩
  · obtain ⟨evs, htrace, hends⟩ := runActions_trace body s.engine s.oracle
    rw [he]
    exact ⟨evs, htrace, hends.precise⟩

/-! ## Who writes the cursor and who sets up lines -/

/-- The instructions of 10_state.md R21. -/
def WritesCursor (i : Instr) : Prop :=
  (∃ p, i = .text p) ∨ (∃ x, i = .cursor x) ∨ (∃ b, i = .txChar b) ∨ i ∈ [Instr.init, .deinit, .clear, .home]

theorem moveCursor_notMem_txCommand (b : Byte) (m : CursorMove) : .moveCursor m ∉ txCommand b := by
  simp [txCommand, txByte, txNibble]

/-- The body of any other instruction holds no cursor action. -/
theorem moveCursor_notMem_body {i : Instr} {here : Fin 80} {body : List Action} (hi : ¬WritesCursor i)
    (hb : bodyOf i here = some body) (m : CursorMove) : .moveCursor m ∉ body := by
  cases i with
  | init | deinit | text _ | clear | home | cursor _ | txChar _ => simp [WritesCursor] at hi
  | shiftLeft | shiftRight | on | off =>
    cases hb
    simp [shiftLeftBody, shiftRightBody, onBody, offBody, moveCursor_notMem_txCommand]
  | configure r v =>
    obtain ⟨d, _, rfl⟩ := Option.map_eq_some_iff.1 hb
    simp
  | write r v =>
    obtain ⟨l, _, rfl⟩ := Option.map_eq_some_iff.1 hb
    simp
  | txNibble rs n =>
    cases hb
    simp [txNibble]
  | _ =>
    cases hb
    exact moveCursor_notMem_txCommand _ m

/-- Settles O48: without a cursor action in its body an instruction keeps the cursor. -/
theorem onlyCursorOperationsMoveTheCursor : Obligations.OnlyCursorOperationsMoveTheCursor := by
  intro i s t ht hne
  obtain rfl := (exec_next_iff i s t).1 ht
  show WritesCursor i
  by_contra hi
  exact hne (execState_engine (P := fun e => e.cursor = s.engine.cursor) rfl
    (fun _ hb _ => runActions_cursor (moveCursor_notMem_body hi hb) _ _) fun _ _ _ => rfl)

/-- A field of the lines that an update of one line keeps. -/
theorem lineOf_onLine_field {α : Type} (field : Line → α) {f : Line → Line} {r : Role} {e : Engine}
    (h : field (f (lineOf e.lines r)) = field (lineOf e.lines r)) (q : Role) :
    field (lineOf (onLine r f e).lines q) = field (lineOf e.lines q) := by
  rw [onLine_lines, lineOf_setLine]
  split
  · next hq => rw [hq, h]
  · rfl

theorem lineOf_onLine_other {q r : Role} (h : q ≠ r) (f : Line → Line) (e : Engine) :
    lineOf (onLine r f e).lines q = lineOf e.lines q := lineOf_setLine_other _ _ _ _ h

/-- Only the acquisition of a line writes its `acq`. -/
theorem doAction_acq {a : Action} {q : Role} (h : a ≠ .acquire q) (e : Engine) (o : Oracle) :
    (lineOf (doAction a e o).engine.lines q).acq = (lineOf e.lines q).acq := by
  cases a with
  | acquire r =>
    have hq : q ≠ r := fun hq => h (hq ▸ rfl)
    simp only [doAction, acquireLine]
    split
    · rw [lineOf_onLine_other hq]
    · rfl
  | configure r d =>
    simp only [doAction, configureLine]
    split
    · exact lineOf_onLine_field Line.acq (lineConfigured_acq _ d) q
    · rfl
  | write r v =>
    simp only [doAction, writeLine]
    split
    · split
      · exact lineOf_onLine_field Line.acq (lineDriven_acq _ v) q
      · rfl
    · rfl
  | delay t => rfl
  | moveCursor m => rfl

theorem runActions_acq {as : List Action} {q : Role} (h : .acquire q ∉ as) (e : Engine) (o : Oracle) :
    (lineOf (runActions as e o).engine.lines q).acq = (lineOf e.lines q).acq :=
  runActions_induct (P := fun e' => (lineOf e'.lines q).acq = (lineOf e.lines q).acq)
    (fun _ ha e' o' he => (doAction_acq (fun hq => h (hq ▸ ha)) e' o').trans he) e o rfl

/-- Only the configuration of a line writes its `dir`. -/
theorem doAction_dir {a : Action} {q : Role} (h : ∀ d, a ≠ .configure q d) (e : Engine) (o : Oracle) :
    (lineOf (doAction a e o).engine.lines q).dir = (lineOf e.lines q).dir := by
  cases a with
  | acquire r =>
    simp only [doAction, acquireLine]
    split
    · exact lineOf_onLine_field Line.dir (lineAcquired_dir _) q
    · rfl
  | configure r d =>
    have hq : q ≠ r := fun hq => h d (hq ▸ rfl)
    simp only [doAction, configureLine]
    split
    · rw [lineOf_onLine_other hq, logEvent_lines]
    · rfl
  | write r v =>
    simp only [doAction, writeLine]
    split
    · split
      · exact lineOf_onLine_field Line.dir (lineDriven_dir _ v) q
      · rfl
    · rfl
  | delay t => rfl
  | moveCursor m => rfl

theorem runActions_dir {as : List Action} {q : Role} (h : ∀ d, .configure q d ∉ as) (e : Engine) (o : Oracle) :
    (lineOf (runActions as e o).engine.lines q).dir = (lineOf e.lines q).dir :=
  runActions_induct (P := fun e' => (lineOf e'.lines q).dir = (lineOf e.lines q).dir)
    (fun _ ha e' o' he => (doAction_dir (fun d hq => h d (hq ▸ ha)) e' o').trans he) e o rfl

theorem setUp_notMem_txByte (rs : Bit) (b : Byte) :
    (∀ r, .acquire r ∉ txByte rs b) ∧ ∀ r d, .configure r d ∉ txByte rs b :=
  operationAction_setup fun _ => operationAction_txByte

/-- A line call or a transmission acquires nothing, and CONFIGURE alone configures, its own line. -/
theorem setUp_of_primitive {i : Instr} {here : Fin 80} {body : List Action} (hr : requestOf i = none)
    (hb : bodyOf i here = some body) :
    (∀ r, .acquire r ∉ body) ∧ ∀ r d, .configure r d ∈ body → ∃ v, i = .configure r v := by
  have bytes : ∀ rs b, (∀ r, .acquire r ∉ txByte rs b) ∧ ∀ r d, .configure r d ∈ txByte rs b → ∃ v, i = .configure r v :=
    fun rs b => ⟨(setUp_notMem_txByte rs b).1, fun r d h => absurd h ((setUp_notMem_txByte rs b).2 r d)⟩
  cases i with
  | configure r v =>
    obtain ⟨d, _, rfl⟩ := Option.map_eq_some_iff.1 hb
    simp
  | write r v =>
    obtain ⟨l, _, rfl⟩ := Option.map_eq_some_iff.1 hb
    simp
  | txNibble rs n =>
    cases hb
    simp [txNibble]
  | txChar b =>
    cases hb
    simpa [txChar] using bytes true b
  | txCommand _ | hdFunctionSet | hdDisplayOnCursorOn | hdClear | hdEntryModeInc | hdHome | hdDisplayShiftLeft
  | hdDisplayShiftRight | hdCursorShiftLeft | hdCursorShiftRight | hdAllOn | hdAllOff =>
    cases hb
    exact bytes false _
  | init | deinit | text _ | clear | home | shiftLeft | shiftRight | on | off | cursor _ => simp [requestOf] at hr

/-- Beside INIT no instruction acquires a line, and CONFIGURE alone configures, its own line. -/
theorem setUp_of_body {i : Instr} {here : Fin 80} {body : List Action} (hi : i ≠ .init) (hb : bodyOf i here = some body) :
    (∀ r, .acquire r ∉ body) ∧ ∀ r d, .configure r d ∈ body → ∃ v, i = .configure r v := by
  cases hr : requestOf i with
  | none => exact setUp_of_primitive hr hb
  | some d =>
    obtain ⟨hacq, hcfg⟩ := operationAction_setup fun _ => operationAction_body hr hi hb
    exact ⟨hacq, fun r d h => absurd h (hcfg r d)⟩

/-- Settles O49: what writes a line's acquisition or direction is an action of the body. -/
theorem onlyInitAndConfigureSetUpLines : Obligations.OnlyInitAndConfigureSetUpLines := by
  intro i s t r ht
  obtain rfl := (exec_next_iff i s t).1 ht
  constructor
  · intro hne
    by_contra hi
    exact hne (execState_engine (P := fun e => (lineOf e.lines r).acq = (lineOf s.engine.lines r).acq) rfl
      (fun _ hb _ => runActions_acq ((setUp_of_body hi hb).1 r) _ _) fun _ _ _ => rfl)
  · intro hne
    by_contra hi
    rw [not_or] at hi
    exact hne (execState_engine (P := fun e => (lineOf e.lines r).dir = (lineOf s.engine.lines r).dir) rfl
      (fun _ hb _ => runActions_dir (fun d hm => hi.2 ((setUp_of_body hi.1 hb).2 r d hm)) _ _) fun _ _ _ => rfl)

end Sys2Proof.Machine
end

section
/-! PROOFS. Construction and its label, a word placed for fetching, and writes to lines that are no outputs. -/

namespace Sys2Proof.Machine

/-! ## Construction, reset and the default label -/

/-- Settles O17: the step takes the input, whose rule is the construction with the label chosen. -/
theorem constructionMakesAFreshEngine : Obligations.ConstructionMakesAFreshEngine := by
  intro s l rest hb hi
  rw [step_eq, stepState_input hb hi]
  cases l <;> rfl

/-- Settles O19: the reset engine is a fresh one, and each of its lines is. -/
theorem resetIsConstruction : Obligations.ResetIsConstruction := by
  refine ⟨rfl, rfl, rfl, rfl, rfl, fun r => ?_⟩
  cases r <;> rfl

/-- The value of a string of decimal digits. -/
def digitsValue (digits : List Byte) : Nat := digits.foldl (fun value d => 10 * value + (d.toNat - 0x30)) 0

/-- The ASCII decimal of a number: digits whose value it is, with no zero in front of others (10_state.md R25). -/
structure IsDecimal (n : Nat) (digits : List Byte) : Prop where
  nonempty : digits ≠ []
  digit : ∀ d ∈ digits, 0x30 ≤ d.toNat ∧ d.toNat ≤ 0x39
  value : digitsValue digits = n
  noZero : digits.head? = some 0x30#8 → digits = [0x30#8]

/-- The ASCII digit of a number below ten. -/
theorem asciiDigit_toNat {k : Nat} (h : k < 10) : (BitVec.ofNat 8 (0x30 + k)).toNat = 0x30 + k := by
  simp only [BitVec.toNat_ofNat]
  omega

theorem isDecimal_digit {n : Nat} (h : n < 10) : IsDecimal n [BitVec.ofNat 8 (0x30 + n)] where
  nonempty := by simp
  digit d hd := by
    rw [List.mem_singleton.1 hd, asciiDigit_toNat h]
    omega
  value := by simp only [digitsValue, List.foldl, asciiDigit_toNat h]; omega
  noZero hz := by rw [Option.some.inj hz]

/-- One more digit behind a decimal that is not zero. -/
theorem IsDecimal.snoc {n : Nat} {digits : List Byte} (h : IsDecimal (n / 10) digits) (hn : ¬n < 10) :
    IsDecimal n (digits ++ [BitVec.ofNat 8 (0x30 + n % 10)]) where
  nonempty := by simp
  digit d hd := by
    rcases List.mem_append.1 hd with hd | hd
    · exact h.digit d hd
    · rw [List.mem_singleton.1 hd, asciiDigit_toNat (Nat.mod_lt n (by decide))]
      omega
  value := by
    have hv := h.value
    simp only [digitsValue, List.foldl_append, List.foldl, asciiDigit_toNat (Nat.mod_lt n (by decide : 0 < 10))] at hv ⊢
    omega
  noZero hz := by
    rw [List.head?_append_of_ne_nil _ h.nonempty] at hz
    have hv := h.value
    simp [h.noZero hz, digitsValue] at hv
    omega

theorem decimalDigits_append (fuel n : Nat) (tail : List Byte) :
    decimalDigits fuel n tail = decimalDigits fuel n [] ++ tail := by
  induction fuel generalizing n tail with
  | zero => rfl
  | succ fuel ih =>
    simp only [decimalDigits]
    split
    · rfl
    · rw [ih, ih _ [_], List.append_assoc]
      rfl

theorem isDecimal_decimalDigits {fuel n : Nat} (h : n < fuel) : IsDecimal n (decimalDigits fuel n []) := by
  induction fuel generalizing n with
  | zero => exact absurd h (Nat.not_lt_zero n)
  | succ fuel ih =>
    simp only [decimalDigits]
    split
    · next hn => rw [Nat.mod_eq_of_lt hn]; exact isDecimal_digit hn
    · next hn => rw [decimalDigits_append]; exact (ih (by omega)).snoc hn

/-- Settles O18: `n + 1` digits are fuel enough, and each round puts the last digit behind the decimal of the rest. -/
theorem defaultLabelIsTheDecimalOrdinal : Obligations.DefaultLabelIsTheDecimalOrdinal := by
  intro n
  have h : IsDecimal n (decimal n) := isDecimal_decimalDigits n.lt_succ_self
  exact ⟨decimal n, rfl, h.nonempty, h.digit, h.value, h.noZero⟩

/-! ## A word placed for fetching -/

theorem decodeTableWord_eq_some {nbits w : Nat} {i : Instr} (h : decodeTableWord nbits w = some i) :
    decode (tablePacket nbits w) = .ok i := by
  unfold decodeTableWord at h
  split at h
  · next j hj => rw [hj, Option.some.inj h]
  · cases h

theorem runBench_ok {p : Packet} {i : Instr} (h : decode p = .ok i) (s : State) : runBench p s = exec i s := by
  simp [runBench, h]

/-- Settles O11: `withFetchWord` puts the word on the bench, and the bench comes before every agent. -/
theorem fetchWordRunsNext : Obligations.FetchWordRunsNext := by
  intro s nbits w i h
  show runBench (tablePacket nbits w) { s with bench := none } = _
  exact runBench_ok (decodeTableWord_eq_some h) _

/-! ## Writes to a line that is no output -/

theorem levelOfVal_legal {val : BitVec 2} (h : val.toNat < 2) : ∃ v, levelOfVal val = some v := by
  obtain h0 | h1 : val.toNat = 0 ∨ val.toNat = 1 := by omega
  · exact ⟨false, by simp [levelOfVal, h0]⟩
  · exact ⟨true, by simp [levelOfVal, h1]⟩

/-- A write to a line that is no output ends the run: the fault, no event, no answer used (40_gpio_lines.md R60). -/
theorem runActions_write_nonOutput {r : Role} {e : Engine} (h : (lineOf e.lines r).dir ≠ .output) (v : Bit)
    (more : List Action) (o : Oracle) :
    runActions (.write r v :: more) e o = ⟨setFault (.writeNotOutput r) e, o, .notOutput⟩ := by
  simp [runActions, doAction, writeLine, h]

/-- Settles O22: the legal VAL is a level, and its write ends the run at once. -/
theorem writeToNonOutputSetsTheFault : Obligations.WriteToNonOutputSetsTheFault := by
  intro s r val hval hdir
  obtain ⟨v, hv⟩ := levelOfVal_legal hval
  simp only [exec, execWrite, hv, alone, runActions_write_nonOutput hdir]
  rfl

/-- Which events come before the first write to a line that is no output is a matter of the directions. -/
theorem beforeNonOutput_congr {a b : LineSet} (h : ∀ r, (lineOf a r).dir = (lineOf b r).dir) (evs : List Event) :
    beforeNonOutput a evs = beforeNonOutput b evs := by
  simp only [beforeNonOutput, h]

@[simp] theorem beforeNonOutput_dly (ls : LineSet) (t : Nat) (evs : List Event) :
    beforeNonOutput ls (.dly t :: evs) = .dly t :: beforeNonOutput ls evs := rfl

theorem beforeNonOutput_wr (ls : LineSet) (r : Role) (v ok : Bool) (evs : List Event) :
    beforeNonOutput ls (.wr r v ok :: evs)
      = if (lineOf ls r).dir = .output then .wr r v ok :: beforeNonOutput ls evs else [] := by
  simp only [beforeNonOutput, List.takeWhile_cons, decide_eq_true_eq]

/-- An action of a transmission: a write or a wait. -/
def TransmissionAction (a : Action) : Prop :=
  match a with
  | .write _ _ | .delay _ => True
  | .acquire _ | .configure _ _ | .moveCursor _ => False

/-- Writes and waits on reliable lines, up to the first write to a line that is no output. -/
theorem runActions_nonOutput {as : List Action} (ha : ∀ a ∈ as, TransmissionAction a) (more : List Action) {e : Engine}
    {o : Oracle} {evs : List Event} (hevs : beforeNonOutput e.lines (eventsOf as) = evs) {r : Role} {v : Bit}
    (hr : (eventsOf as)[evs.length]? = some (.wr r v true)) (ho : reliable (callCount evs) o = true) :
    runActions (as ++ more) e o
      = ⟨{ e with
            trace := e.trace ++ evs
            lines := replay e.lines evs
            fault := some (.writeNotOutput r) },
          skipAnswers (callCount evs) o, .notOutput⟩ := by
  subst hevs
  induction as generalizing e o with
  | nil => simp [eventsOf] at hr
  | cons a as ih =>
    have ih := @ih fun b hb => ha b (List.mem_cons_of_mem _ hb)
    cases a with
    | acquire _ | configure _ _ | moveCursor _ => exact (ha _ (List.mem_cons_self ..)).elim
    | delay t =>
      have hev : eventsOf (.delay t :: as) = .dly t :: eventsOf as := rfl
      rw [hev, beforeNonOutput_dly] at hr ho ⊢
      refine (ih (e := logEvent (.dly t) e) (o := o) (by simpa using hr) ho).trans ?_
      simp [logEvent, callCount, replay, replayEvent]
    | write q w =>
      have hev : eventsOf (.write q w :: as) = .wr q w true :: eventsOf as := rfl
      rw [hev, beforeNonOutput_wr] at hr ho ⊢
      split at hr
      · next hd =>
        rw [if_pos hd] at ho ⊢
        obtain ⟨hans, hrest⟩ := (reliable_succ _ _).1 ho
        let e' := onLine q (lineDriven w) (logEvent (.wr q w true) e)
        have hdirs : beforeNonOutput e'.lines (eventsOf as) = beforeNonOutput e.lines (eventsOf as) :=
          beforeNonOutput_congr (fun x => dir_lineDriven e.lines q x w) _
        have hrun : runActions (.write q w :: as ++ more) e o = runActions (as ++ more) e' (restAnswers o) := by
          simp [runActions, doAction, writeLine, hd, hans, e']
        rw [hrun]
        refine (ih (by simpa [hdirs] using hr) (by rwa [hdirs])).trans ?_
        rw [hdirs]
        simp [e', callCount, replay, replayEvent, skipAnswers, onLine, logEvent]
      · next hd =>
        obtain ⟨rfl, rfl⟩ : q = r ∧ w = v := by simpa using hr
        rw [if_neg hd]
        simpa [callCount, setFault] using runActions_write_nonOutput hd w (as ++ more) o

theorem transmissionAction_txNibble (n : Nibble) : ∀ a ∈ txNibble n, TransmissionAction a := by
  simp [txNibble, TransmissionAction]

theorem transmissionAction_txByte (rs : Bit) (b : Byte) : ∀ a ∈ txByte rs b, TransmissionAction a := by
  intro a ha
  rcases mem_txByte ha with ⟨t, rfl⟩ | ⟨r, v, rfl, _⟩ <;> trivial

/-- A transmission driven alone that reaches a line that is no output. -/
theorem alone_nonOutput {as : List Action} (ha : ∀ a ∈ as, TransmissionAction a) (more : List Action) {s : State}
    {evs : List Event} (hevs : beforeNonOutput s.engine.lines (eventsOf as) = evs) {r : Role} {v : Bit}
    (hr : (eventsOf as)[evs.length]? = some (.wr r v true)) (ho : reliable (callCount evs) s.oracle = true) :
    alone (as ++ more) s = stoppedAtNonOutput evs r s := by
  rw [alone, runActions_nonOutput ha more hevs hr ho]
  rfl

/-- A command byte is TxCommand of that byte (30_encoding.md R54). -/
theorem exec_hdCommand {q : Instr × Byte} (hq : q ∈ hdCommands Config.commandBytes) (s : State) :
    exec q.1 s = .next (alone (txCommand q.2) s) := by
  simp only [hdCommands, List.mem_cons, List.not_mem_nil, or_false] at hq
  rcases hq with rfl | rfl | rfl | rfl | rfl | rfl | rfl | rfl | rfl | rfl | rfl <;> rfl

/-- Settles O41: a nibble, a byte with or without the cursor's advance behind it, and the command bytes. -/
theorem nonOutputLineEndsATransmission : Obligations.NonOutputLineEndsATransmission := by
  intro s r v
  have byte := fun (rs : Bit) (b : Byte) (more : List Action) =>
    alone_nonOutput (r := r) (v := v) (transmissionAction_txByte rs b) more (s := s) rfl
  have command := fun (b : Byte) => by simpa using byte false b []
  refine ⟨fun rs n hr ho => ?_, fun rs b hr ho => ?_, fun q hq hr ho => ?_⟩
  · have h := alone_nonOutput (transmissionAction_txNibble n) [] rfl hr ho
    rw [List.append_nil] at h
    exact congrArg _ h
  · cases rs
    · exact congrArg _ (command b hr ho)
    · exact congrArg _ (byte true b [.moveCursor .advance] hr ho)
  · rw [exec_hdCommand hq]
    exact congrArg _ (command q.2 hr ho)

end Sys2Proof.Machine
end

section
/-! PROOFS. Runs that a failed call stops, and the INIT that fails. -/

namespace Sys2Proof.Machine

/-! ## Runs whose `k`-th call fails -/

theorem cutAt_actionEvents {a : Action} (h : ∀ r, a ≠ .acquire r) (k : Nat) (evs : List Event) :
    cutAt (actionCalls a + k) (actionEvents a ++ evs) = actionEvents a ++ cutAt k evs := by
  cases a with
  | acquire r => exact absurd rfl (h r)
  | configure r d | write r v => rw [Nat.add_comm]; rfl
  | delay t | moveCursor m => simp [actionCalls, actionEvents, cutAt]

theorem runActions_moveCursor (m : CursorMove) (as : List Action) (e : Engine) (o : Oracle) :
    runActions (.moveCursor m :: as) e o = runActions as { e with cursor := cursorAfter m e.cursor } o := rfl

/-- A failed call stops the run with its answer the last one used; without acquisitions its event is the last. -/
theorem runActions_stops {as : List Action} {e : Engine} {o : Oracle} (hw : Writable as e) {k : Nat} (hk : k < callsOf as)
    (ho : failsAt k o = true) :
    (runActions as e o).ending ≠ .done ∧ (runActions as e o).oracle = skipAnswers (k + 1) o ∧
      ((∀ r, .acquire r ∉ as) → (runActions as e o).engine.trace = e.trace ++ cutAt k (eventsOf as)) := by
  induction as generalizing e o k with
  | nil => simp at hk
  | cons a as ih =>
    have hev : eventsOf (a :: as) = actionEvents a ++ eventsOf as := rfl
    by_cases hc : actionCalls a ≤ k
    · obtain ⟨j, rfl⟩ := Nat.exists_eq_add_of_le hc
      obtain ⟨hans, hfail⟩ := (failsAt_add ..).1 ho
      obtain ⟨hne, horacle, htrace⟩ := ih hw.2 (by rw [callsOf_cons] at hk; omega) hfail
      simp only [runActions, doAction_reliable hw hans]
      refine ⟨hne, by rw [horacle, Nat.add_assoc, skipAnswers_add (actionCalls a)], fun hacq => ?_⟩
      have hhead : ∀ r, a ≠ .acquire r := fun r h => hacq r (h ▸ List.mem_cons_self ..)
      have happly : (applyAction a e).trace = e.trace ++ actionEvents a := by
        simpa [eventsOf] using applyActions_trace [a] e
      rw [htrace fun r hr => hacq r (List.mem_cons_of_mem _ hr), hev, cutAt_actionEvents hhead, happly, List.append_assoc]
    · have hone : actionCalls a ≤ 1 := by cases a <;> simp [actionCalls]
      obtain rfl : k = 0 := by omega
      have hans : nextAnswer o = false := by simpa [failsAt] using ho
      cases a with
      | acquire r =>
        simp only [runActions, doAction, acquireLine, hans]
        exact ⟨by simp, rfl, fun h => absurd (List.mem_cons_self ..) (h r)⟩
      | configure r d =>
        simp only [runActions, doAction, configureLine, hans]
        exact ⟨by simp, rfl, fun _ => rfl⟩
      | write r v =>
        simp only [runActions, doAction, writeLine, hw.1, hans]
        exact ⟨by simp, rfl, fun _ => rfl⟩
      | delay t => simp [actionCalls] at hc
      | moveCursor m => simp [actionCalls] at hc

/-- What would follow a failed call never happens. -/
theorem runActions_append_stops {as : List Action} (bs : List Action) {e : Engine} {o : Oracle} (hw : Writable as e) {k : Nat}
    (hk : k < callsOf as) (ho : failsAt k o = true) : runActions (as ++ bs) e o = runActions as e o := by
  have hne := (runActions_stops hw hk ho).1
  rw [runActions_append]
  split
  · next h => exact absurd h hne
  · rfl
  · rfl

/-- Without writes no run ends in E_IO. -/
theorem runActions_no_eIo {as : List Action} (h : ∀ r v, .write r v ∉ as) (e : Engine) (o : Oracle) :
    (runActions as e o).ending ≠ .raised .eIo := by
  induction as generalizing e o with
  | nil => simp [runActions]
  | cons a as ih =>
    have ih := ih fun r v hr => h r v (List.mem_cons_of_mem _ hr)
    simp only [runActions]
    split
    · exact ih _ _
    all_goals
      cases a with
      | write r v => exact absurd (List.mem_cons_self ..) (h r v)
      | acquire r => simp only [doAction, acquireLine]; split <;> simp
      | configure r d => simp only [doAction, configureLine]; split <;> simp
      | delay t => simp [doAction]
      | moveCursor m => simp [doAction]

theorem SameWires.trans {a b c : LineSet} (h : SameWires a b) (h' : SameWires b c) : SameWires a c :=
  fun r => ⟨(h r).1.trans (h' r).1, (h r).2.trans (h' r).2⟩

theorem SameWires.replay {a b : LineSet} (h : SameWires a b) (evs : List Event) :
    SameWires (replay a evs) (replay b evs) := by
  induction evs generalizing a b with
  | nil => exact h
  | cons ev evs ih => exact ih (h.replayEvent ev)

/-- What a run does to directions and levels is what its events say. -/
theorem runActions_wires (as : List Action) (e : Engine) (o : Oracle) :
    ∃ evs, (runActions as e o).engine.trace = e.trace ++ evs ∧
      SameWires (runActions as e o).engine.lines (replay e.lines evs) := by
  induction as generalizing e o with
  | nil => exact ⟨[], by simp [runActions], .refl _⟩
  | cons a as ih =>
    obtain ⟨evs, htrace, hwires⟩ := doAction_wires a e o
    simp only [runActions]
    split
    · obtain ⟨more, htrace', hwires'⟩ := ih (doAction a e o).engine (doAction a e o).oracle
      refine ⟨evs ++ more, by rw [htrace', htrace, List.append_assoc], ?_⟩
      rw [replay_append]
      exact hwires'.trans (hwires.replay more)
    · exact ⟨evs, htrace, hwires⟩
    · exact ⟨evs, htrace, hwires⟩

/-- A run writes the lines, the cursor, the trace and the fault alone. -/
theorem runActions_eq (as : List Action) (e : Engine) (o : Oracle) :
    runActions as e o
      = ⟨{ e with
            lines := (runActions as e o).engine.lines
            cursor := (runActions as e o).engine.cursor
            trace := (runActions as e o).engine.trace
            fault := (runActions as e o).engine.fault },
          (runActions as e o).oracle, (runActions as e o).ending⟩ := by
  obtain ⟨hpending, hlabel, hlife⟩ := runActions_frame as e o
  rw [← hpending, ← hlabel, ← hlife]

/-! ## An INIT whose `k`-th call fails -/

section FailedInit

variable {c : CommandBytes} {e : Engine} {o : Oracle} {k : Nat}

/-- INIT up to the cursor's reset in its embedded clear (42_lifecycle.md R67). -/
def initBeforeReset (c : CommandBytes) : List Action :=
  acquireAll ++ configureAll ++ [Action.delay Config.tPowerOn, Action.write .rs false, Action.write .rw false]
    ++ txNibble Config.initNibbleA ++ [Action.delay Config.tInitGap1]
    ++ txNibble Config.initNibbleA ++ [Action.delay Config.tInitGap2]
    ++ txNibble Config.initNibbleA
    ++ txNibble Config.initNibbleB
    ++ txCommand c.functionSet
    ++ txCommand c.displayOnCursorOn
    ++ txCommand c.clear

/-- INIT after that. -/
def initAfterReset (c : CommandBytes) : List Action :=
  [Action.delay Config.tClear] ++ txCommand c.entryModeInc ++ [Action.delay Config.tStable]

theorem initBody_eq (c : CommandBytes) : initBody c = initBeforeReset c ++ .moveCursor .toZero :: initAfterReset c := by
  simp [initBody, powerOnSequence, clearBody, initBeforeReset, initAfterReset]

theorem initBody_eq_acquireAll (c : CommandBytes) : initBody c = acquireAll ++ (configureAll ++ powerOnSequence c) :=
  List.append_assoc ..

theorem acquire_notMem_afterAcquireAll (r : Role) : .acquire r ∉ configureAll ++ powerOnSequence c := by
  simp [configureAll, (operationAction_setup fun _ => operationAction_powerOnSequence (c := c)).1 r]

theorem callsOf_initBeforeReset (c : CommandBytes) : callsOf (initBeforeReset c) = 92 := by
  simp [initBeforeReset, acquireAll, configureAll, allRoles, txCommand, callsOf_append, actionCalls]

theorem writable_initBeforeReset (c : CommandBytes) (e : Engine) : Writable (initBeforeReset c) e := by
  have h := writable_initBody c e
  rw [initBody_eq, writable_append] at h
  exact h.1

theorem writable_acquireAll (e : Engine) : Writable acquireAll e := by simp [Writable, acquireAll, allRoles]

/-- The calls of an INIT that fails are the collaborator's answers up to the failure. -/
theorem initBody_stops (hk : k < 108) (ho : failsAt k o = true) :
    (runActions (initBody c) e o).ending ≠ .done ∧ (runActions (initBody c) e o).oracle = skipAnswers (k + 1) o := by
  obtain ⟨hne, horacle, _⟩ := runActions_stops (writable_initBody c e) (by rwa [callsOf_initBody]) ho
  exact ⟨hne, horacle⟩

/-- Before the 15th answer only acquisitions and configurations can fail, and after it only writes. -/
theorem initBody_failed_ending (hk : k < 108) (ho : failsAt k o = true) :
    (runActions (initBody c) e o).ending = .raised (if k < 14 then .eHwCfg else .eIo) := by
  have hne := (initBody_stops (c := c) (e := e) hk ho).1
  have hend := initBody_ending c e o
  by_cases h14 : k < 14
  · have hrun : runActions (initBody c) e o = _ := runActions_append_stops (powerOnSequence c) (writable_setUp e) h14 ho
    have hio := runActions_no_eIo (as := acquireAll ++ configureAll) (by simp [acquireAll, configureAll]) e o
    rw [← hrun] at hio
    rw [if_pos h14]
    exact (hend.resolve_left hne).resolve_left hio
  · obtain ⟨j, rfl⟩ := Nat.exists_eq_add_of_le (Nat.le_of_not_lt h14)
    have hrun : runActions (initBody c) e o = _ :=
      runActions_reliable_append (writable_setUp e) ((failsAt_add ..).1 ho).1
    obtain ⟨hacq, hcfg⟩ := operationAction_setup fun _ => operationAction_powerOnSequence (c := c)
    have hcfg := runActions_no_hwCfg hacq hcfg (applyActions (acquireAll ++ configureAll) e) (skipAnswers 14 o)
    rw [if_neg h14]
    exact (hend.resolve_left hne).resolve_right (hrun ▸ hcfg)

/-- Acquisitions append no event, and the events of the rest are those of INIT up to the failed call. -/
theorem initBody_failed_trace (hk : k < 108) (ho : failsAt k o = true) :
    (runActions (initBody c) e o).engine.trace = e.trace ++ if k < 7 then [] else cutAt (k - 7) (initEvents c) := by
  rw [initBody_eq_acquireAll]
  by_cases h7 : k < 7
  · rw [if_pos h7, List.append_nil, runActions_append_stops _ (writable_acquireAll e) h7 ho]
    refine runActions_induct (P := fun e' => e'.trace = e.trace) (fun a ha e' o' he => ?_) e o rfl
    obtain ⟨r, _, rfl⟩ := List.mem_map.1 ha
    simp only [doAction, acquireLine]
    split <;> exact he
  · obtain ⟨j, rfl⟩ := Nat.exists_eq_add_of_le (Nat.le_of_not_lt h7)
    obtain ⟨hans, hfail⟩ := (failsAt_add ..).1 ho
    have hw := writable_initBody c e
    have hcalls := callsOf_initBody c
    have hevents := eventsOf_initBody c
    rw [initBody_eq_acquireAll] at hw hcalls hevents
    rw [runActions_reliable_append (writable_acquireAll e) hans, if_neg h7, Nat.add_sub_cancel_left, ← hevents]
    have hrest : j < callsOf (configureAll ++ powerOnSequence c) := by
      rw [callsOf_append, show callsOf acquireAll = 7 from rfl] at hcalls
      omega
    exact (runActions_stops ((writable_append ..).1 hw).2 hrest hfail).2.2
      acquire_notMem_afterAcquireAll

/-- The cursor is reset between the 92nd and the 93rd call, and nowhere else. -/
theorem initBody_failed_cursor (ho : failsAt k o = true) :
    (runActions (initBody c) e o).engine.cursor = if k < 92 then e.cursor else 0 := by
  have hw := writable_initBeforeReset c e
  rw [initBody_eq]
  by_cases h92 : k < 92
  · rw [if_pos h92, runActions_append_stops _ hw (by rwa [callsOf_initBeforeReset]) ho]
    exact runActions_cursor (by
      simp [initBeforeReset, acquireAll, configureAll, txNibble, moveCursor_notMem_txCommand]) e o
  · obtain ⟨j, rfl⟩ := Nat.exists_eq_add_of_le (Nat.le_of_not_lt h92)
    rw [if_neg h92, runActions_reliable_append hw (by rw [callsOf_initBeforeReset]; exact ((failsAt_add ..).1 ho).1)]
    rw [runActions_moveCursor, runActions_cursor (by simp [initAfterReset, moveCursor_notMem_txCommand])]
    rfl

/-- Acquisitions in order, the `k`-th failing: the lines before it are acquired. -/
theorem runActions_acquire_failed {rs : List Role} (hk : k < rs.length) (ho : failsAt k o = true) (q : Role) :
    (lineOf (runActions (rs.map .acquire) e o).engine.lines q).acq = ((lineOf e.lines q).acq || decide (q ∈ rs.take k)) := by
  induction rs generalizing e o k with
  | nil => simp at hk
  | cons r rs ih =>
    cases k with
    | zero =>
      have hans : nextAnswer o = false := by simpa [failsAt] using ho
      simp [runActions, doAction, acquireLine, hans]
    | succ k =>
      rw [Nat.add_comm, failsAt_add] at ho
      obtain ⟨hans, hfail⟩ := ho
      have hans : nextAnswer o = true := by simpa [reliable] using hans
      simp only [List.map_cons, runActions, doAction, acquireLine, hans, if_true]
      rw [ih (o := restAnswers o) (Nat.lt_of_succ_lt_succ hk) hfail, onLine_lines, lineOf_setLine]
      by_cases hq : q = r <;> simp [hq]

/-- The roles are in the order of their indices (20_memory.md R29). -/
theorem mem_take_allRoles (q : Role) (k : Nat) : q ∈ allRoles.take k ↔ q.index.toNat < k := by
  have hmem : q ∈ allRoles := by cases q <;> decide
  have hidx : allRoles.idxOf q = q.index.toNat := by cases q <;> decide
  rw [List.mem_take_iff_idxOf_lt hmem, hidx]

/-- Each acquisition before the failure stays. -/
theorem initBody_failed_acq (ho : failsAt k o = true) (q : Role) :
    (lineOf (runActions (initBody c) e o).engine.lines q).acq
      = ((lineOf e.lines q).acq || decide (q.index.toNat < k)) := by
  rw [initBody_eq_acquireAll]
  by_cases h7 : k < 7
  · rw [runActions_append_stops _ (writable_acquireAll e) h7 ho, acquireAll, runActions_acquire_failed h7 ho]
    simp only [mem_take_allRoles]
  · obtain ⟨j, rfl⟩ := Nat.exists_eq_add_of_le (Nat.le_of_not_lt h7)
    have hidx : q.index.toNat < 7 + j := by cases q <;> simp [Role.index] <;> omega
    have hacq : (lineOf (applyActions acquireAll e).lines q).acq = true := by cases q <;> rfl
    rw [runActions_reliable_append (writable_acquireAll e) ((failsAt_add ..).1 ho).1,
      runActions_acq (acquire_notMem_afterAcquireAll q), hacq]
    simp [hidx]

/-- An INIT whose `k`-th call fails. -/
theorem runActions_initBody_failed (hk : k < 108) (ho : failsAt k o = true) :
    ∃ ls : LineSet,
      runActions (initBody c) e o
        = ⟨{ e with
              lines := ls
              cursor := if k < 92 then e.cursor else 0
              trace := e.trace ++ if k < 7 then [] else cutAt (k - 7) (initEvents c) },
            skipAnswers (k + 1) o, .raised (if k < 14 then .eHwCfg else .eIo)⟩ ∧
      (∀ r, (lineOf ls r).acq = ((lineOf e.lines r).acq || decide (r.index.toNat < k))) ∧
      SameWires ls (replay e.lines (if k < 7 then [] else cutAt (k - 7) (initEvents c))) := by
  have htrace := initBody_failed_trace (c := c) (e := e) hk ho
  obtain ⟨evs, htrace', hwires⟩ := runActions_wires (initBody c) e o
  obtain rfl := List.append_cancel_left (htrace'.symm.trans htrace)
  refine ⟨_, (runActions_eq ..).trans ?_, initBody_failed_acq ho, hwires⟩
  rw [htrace, initBody_failed_cursor ho, (initBody_stops hk ho).2, initBody_failed_ending hk ho,
    (runActions_writable (writable_initBody c e)).2]

end FailedInit

/-- Settles O39: the run of INIT's body to its failed call, and FAILED after it. -/
theorem failedInitLeavesFailed : Obligations.FailedInitLeavesFailed := by
  intro s k hlife hk ho
  obtain ⟨ls, hrun, hacq, hwires⟩ := runActions_initBody_failed (c := Config.commandBytes) (e := s.engine) hk ho
  refine ⟨ls, ?_, fun r => ⟨hacq r, hwires r⟩⟩
  rw [exec_eq, execState_init hlife, hrun]
  rfl

end Sys2Proof.Machine
end

section
/-! PROOFS. What a transmission on outputs that answer does, what it latches, and the bus word its latches pair into. -/

namespace Sys2Proof.Machine

/-! ## Transmissions that complete -/

/-- Settles O24: the nibble's seven writes go to outputs, and its actions leave its events and levels. -/
theorem nibbleTransmissionCompletes : Obligations.NibbleTransmissionCompletes := by
  intro s rs n hdir ho
  have h := runActions_reliable (writable_txNibble n hdir) ho
  rw [applyActions_txNibble] at h
  simp only [exec, execTxNibble, alone, h]
  rfl

/-- A byte alone on outputs that answer. -/
theorem alone_txByte (rs : Bit) (b : Byte) {s : State} (hout : Outputs s.engine.lines) (ho : reliable 16 s.oracle = true) :
    alone (txByte rs b) s
      = succeeded (byteEvents rs b) (afterByte rs b s.engine.lines) s.engine.cursor s.engine.life 16 s := by
  have h := runActions_txByte rs b [] hout ho
  rw [List.append_nil] at h
  rw [alone, h]
  rfl

/-- Settles O25: a byte with RS low for the commands, and with RS high and the cursor's advance behind it for a character. -/
theorem byteTransmissionCompletes : Obligations.ByteTransmissionCompletes := by
  intro s hout ho
  refine ⟨fun b => ⟨congrArg _ (alone_txByte false b hout ho), ?_⟩, fun q hq => ?_⟩
  · simp only [exec, execTxChar, alone, txChar, runActions_txByte true b _ hout ho]
    rfl
  · rw [exec_hdCommand hq]
    exact congrArg _ (alone_txByte false q.2 hout ho)

/-! ## What a transmission latches -/

@[simp] theorem afterNibble_rs (n : Nibble) (ls : LineSet) : (afterNibble n ls).rs = ls.rs := rfl
@[simp] theorem afterNibble_rw (n : Nibble) (ls : LineSet) : (afterNibble n ls).rw = ls.rw := rfl
@[simp] theorem afterNibble_en_ne (n : Nibble) (ls : LineSet) : (afterNibble n ls).en.lvl ≠ some true := nofun
@[simp] theorem afterByte_en_ne (rs : Bit) (b : Byte) (ls : LineSet) : (afterByte rs b ls).en.lvl ≠ some true := nofun

/-- EN is high at its third write alone, where RS, RW and the nibble are presented. -/
theorem latchesFrom_nibbleEvents {ls : LineSet} (h : ls.en.lvl ≠ some true) (n : Nibble) :
    latchesFrom ls (nibbleEvents n) = [nibbleLatch ls.rs.lvl ls.rw.lvl n] := by
  simp [nibbleEvents, latchesFrom, latchAt, replayEvent, setLine, lineOf, lineDriven, presented, nibbleLatch, h]

/-- The high nibble under the RS and RW just written, then the low nibble under the same levels. -/
theorem latchesFrom_byteEvents {ls : LineSet} (h : ls.en.lvl ≠ some true) (rs : Bit) (b : Byte) :
    latchesFrom ls (byteEvents rs b) = byteLatches rs b := by
  have hen : (replay ls [.wr .rs rs true, .wr .rw false true]).en.lvl ≠ some true := h
  rw [byteEvents, latchesFrom_append, latchesFrom_append, replay_append, latchesFrom_nibbleEvents hen,
    replay_nibbleEvents, latchesFrom_nibbleEvents (afterNibble_en_ne _ _)]
  rfl

/-- Settles O26: the nibble's own latch, and the two of a byte. -/
theorem transmissionLatchesItsNibbles : Obligations.TransmissionLatchesItsNibbles :=
  fun _ h => ⟨latchesFrom_nibbleEvents h, latchesFrom_byteEvents h⟩

/-! ## The bus word of a byte -/

/-- The four data bits of a latch are its nibble, most significant first (30_encoding.md R52). -/
theorem latchWord_nibbleLatch (rs rw : Bit) (n : Nibble) :
    latchWord (nibbleLatch (some rs) (some rw) n) = some (BitVec.ofBool rs ++ BitVec.ofBool rw ++ n) := by
  revert rs rw n
  decide

/-- The two words agree in RS and RW, and their nibbles are the byte's (30_encoding.md R53). -/
theorem pairWord_nibbles (rs : Bit) (b : Byte) :
    pairWord (BitVec.ofBool rs ++ 0#1 ++ b.extractLsb' 4 4) (BitVec.ofBool rs ++ 0#1 ++ b.extractLsb' 0 4)
      = some (BitVec.ofBool rs ++ 0#1 ++ b) := by
  have hbyte : b.extractLsb' 4 4 ++ b.extractLsb' 0 4 = b := BitVec.extractLsb'_append_extractLsb'
  simp only [pairWord, latchedNibble, field, BitVec.extractLsb'_append_eq_left, BitVec.extractLsb'_append_eq_right, if_true]
  rw [BitVec.append_assoc, hbyte]
  rfl

/-- RW is low, RS tells a character from a command, and the low eight bits are the byte (30_encoding.md R53). -/
theorem decodeBus10_byte (rs : Bit) (b : Byte) :
    decodeBus10 (BitVec.ofBool rs ++ 0#1 ++ b) = .ok (if rs then .txChar b else .txCommand b) := by
  have hrw : field (BitVec.ofBool rs ++ 0#1 ++ b) 8 1 = 0#1 := by
    rw [field, BitVec.extractLsb'_append_eq_of_le (Nat.le_refl 8)]
    exact BitVec.extractLsb'_append_eq_right
  have hrs : field (BitVec.ofBool rs ++ 0#1 ++ b) 9 1 = BitVec.ofBool rs := by
    rw [field, BitVec.extractLsb'_append_eq_of_le (by decide)]
    exact BitVec.extractLsb'_append_eq_left
  have hbyte : field (BitVec.ofBool rs ++ 0#1 ++ b) 0 8 = b := BitVec.extractLsb'_append_eq_right
  simp only [decodeBus10, hrw, hrs, hbyte]
  cases rs <;> rfl

/-- Settles O27: each latch word is the nibble's, and the two agree in RS and RW. -/
theorem latchedBytePairsIntoItsBusWord : Obligations.LatchedBytePairsIntoItsBusWord := by
  intro rs b
  have hlatch : ∀ n : Nibble, latchWord (nibbleLatch (some rs) (some false) n) = some (BitVec.ofBool rs ++ 0#1 ++ n) :=
    latchWord_nibbleLatch rs false
  exact ⟨_, _, by simp only [byteLatches, List.map, hlatch], rfl, rfl, pairWord_nibbles rs b, decodeBus10_byte rs b⟩

end Sys2Proof.Machine
end

section
/-! PROOFS. Steps of one engine beside the others. -/

namespace Sys2Proof.Machine

/-! ## Engines side by side -/

theorem enqueue_others (c : Caller) (r : Request) (s : State) (os : List Display) :
    enqueue c r { s with others := os } = { enqueue c r s with others := os } := by
  unfold enqueue
  split <;> rfl

theorem submit_others (c : Caller) (w : BitVec 16) (p : List Byte) (s : State) (os : List Display) :
    submit c w p { s with others := os } = { submit c w p s with others := os } := by
  unfold submit
  split
  · exact enqueue_others ..
  · rfl

theorem useSurface_others (c : Caller) (sf : Surface) (s : State) (os : List Display) :
    useSurface c sf { s with others := os } = { useSurface c sf s with others := os } := by
  unfold useSurface
  split
  · exact submit_others ..
  · rfl

theorem cancel_others (k : Nat) (s : State) (os : List Display) :
    cancel k { s with others := os } = { cancel k s with others := os } := by
  simp only [cancel]
  split <;> rfl

theorem admitState_others (k : Nat) (s : State) (os : List Display) :
    admitState k { s with others := os } = { admitState k s with others := os } := by
  simp only [admitState]
  split
  · next p rest _ =>
    have h := execState_others p.request.toInstr (setPending rest s) os
    rw [show setPending rest { s with others := os } = { setPending rest s with others := os } from rfl, h,
      replyReturned_eq, replyReturned_eq]
  · rfl

/-- An input that neither makes nor turns to an engine is for the current one alone. -/
theorem inputState_others {i : Input} (h : changesEngine i = false) (s : State) (os : List Display) :
    inputState i { s with others := os } = { inputState i s with others := os } := by
  cases i with
  | construct l => cases h
  | turnTo k => cases h
  | submit c w p => exact submit_others ..
  | surface c sf => exact useSurface_others ..
  | admitOne k => exact admitState_others ..
  | cancel k => exact cancel_others ..
  | readKeywords c => rfl
  | readLabel c => rfl

theorem benchState_others (p : Packet) (s : State) (os : List Display) :
    benchState p { s with others := os } = { benchState p s with others := os } := by
  unfold benchState
  split
  · exact execState_others ..
  · rfl

/-- A step of the current engine is the same beside any others. -/
theorem stepState_others {s : State} (h : s.bench ≠ none ∨ ∃ i rest, s.inputs = i :: rest ∧ changesEngine i = false)
    (os : List Display) : stepState { s with others := os } = { stepState s with others := os } := by
  by_cases hb : s.bench = none
  · obtain ⟨i, rest, hi, hc⟩ := h.resolve_left (not_not.2 hb)
    have hos := stepState_input (s := { s with others := os }) hb hi
    rw [hos, stepState_input hb hi]
    exact inputState_others hc { s with inputs := rest } os
  · obtain ⟨p, hp⟩ := Option.ne_none_iff_exists'.1 hb
    simp only [stepState, hp]
    exact benchState_others p { s with bench := none } os

/-- Settles O50: a step of the current engine commutes with any change of the others, so it keeps those it has; a turn only
moves an engine to the front. -/
theorem enginesAreIndependent : Obligations.EnginesAreIndependent := by
  intro s t ht
  obtain rfl := (step_next_iff s t).1 ht
  refine ⟨fun h => ⟨?_, fun os => ?_⟩, fun k rest hb hi => ?_⟩
  · have hself : stepState s = { stepState s with others := s.others } := stepState_others h s.others
    rw [hself]
  · rw [step_eq, stepState_others h]
  · rw [stepState_input hb hi]
    exact ⟨turnTo_displays k { s with inputs := rest }, turnTo_eq k { s with inputs := rest }⟩

end Sys2Proof.Machine
end

section
/-! PROOFS. The latches of an engine's whole trace: INIT's four nibbles, and then whole bytes. -/

namespace Sys2Proof.Machine

/-! ## Events that latch whole bytes -/

/-- From lines whose EN is not high, the events latch whole bytes, and EN is not high after them (20_memory.md R34). -/
def LatchWholeBytes (evs : List Event) : Prop :=
  ∀ ls : LineSet, ls.en.lvl ≠ some true →
    (replay ls evs).en.lvl ≠ some true ∧
    ∃ bytes : List (Bit × Byte), latchesFrom ls evs = bytes.flatMap fun p => byteLatches p.1 p.2

theorem latchWholeBytes_nil : LatchWholeBytes [] := fun _ h => ⟨h, [], rfl⟩

theorem latchWholeBytes_dly (t : Nat) : LatchWholeBytes [.dly t] := fun _ h => ⟨h, [], rfl⟩

theorem latchWholeBytes_byteEvents (rs : Bit) (b : Byte) : LatchWholeBytes (byteEvents rs b) := fun ls h =>
  ⟨by rw [replay_byteEvents]; exact afterByte_en_ne _ _ _, [(rs, b)], by simp [latchesFrom_byteEvents h]⟩

theorem LatchWholeBytes.append {xs ys : List Event} (hx : LatchWholeBytes xs) (hy : LatchWholeBytes ys) :
    LatchWholeBytes (xs ++ ys) := by
  intro ls h
  obtain ⟨hen, bytes, hlatch⟩ := hx ls h
  obtain ⟨hen', more, hlatch'⟩ := hy _ hen
  exact ⟨by rwa [replay_append], bytes ++ more, by rw [latchesFrom_append, hlatch, hlatch', List.flatMap_append]⟩

/-! ## The events of the operations -/

theorem latchWholeBytes_bytesBody (rs : Bit) (m : CursorMove) (bs : List Byte) :
    LatchWholeBytes (eventsOf (bytesBody rs m bs)) := by
  induction bs with
  | nil => exact latchWholeBytes_nil
  | cons b bs ih =>
    rw [bytesBody_cons, eventsOf_append]
    exact (latchWholeBytes_byteEvents rs b).append ih

/-- A command with a wait, with or without a cursor move before it. -/
theorem latchWholeBytes_command (b : Byte) {more : List Action} {t : Nat} (h : eventsOf more = [.dly t]) :
    LatchWholeBytes (eventsOf (txCommand b ++ more)) := by
  rw [eventsOf_append, h]
  exact (latchWholeBytes_byteEvents false b).append (latchWholeBytes_dly t)

/-- Every operation but INIT sends whole bytes. -/
theorem latchWholeBytes_body {r : Request} (hr : r ≠ .init) {here : Fin 80} {body : List Action}
    (hb : bodyOf r.toInstr here = some body) : LatchWholeBytes (eventsOf body) := by
  cases r with
  | init => exact absurd rfl hr
  | text p => cases hb; exact latchWholeBytes_bytesBody true .advance (p.take 80)
  | cursor t =>
    obtain ⟨cell, _, rfl⟩ := Option.map_eq_some_iff.1 hb
    rw [cursorBody_eq]
    split <;> exact latchWholeBytes_bytesBody _ _ _
  | deinit | clear | home | shiftLeft | shiftRight | on | off => cases hb; exact latchWholeBytes_command _ rfl

/-! ## Paired traces -/

/-- The trace latches INIT's four nibbles and then whole bytes, and leaves EN not high. -/
def LatchesPaired (t : List Event) : Prop :=
  (replay LineSet.fresh t).en.lvl ≠ some true ∧
  ∃ bytes : List (Bit × Byte), latches t = initLatches ++ bytes.flatMap fun p => byteLatches p.1 p.2

theorem LatchesPaired.append {t evs : List Event} (ht : LatchesPaired t) (hevs : LatchWholeBytes evs) :
    LatchesPaired (t ++ evs) := by
  obtain ⟨hen, bytes, hlatch⟩ := ht
  obtain ⟨hen', more, hlatch'⟩ := hevs _ hen
  refine ⟨by rwa [replay_append], bytes ++ more, ?_⟩
  rw [latches, latchesFrom_append, ← latches, hlatch, hlatch', List.append_assoc, List.flatMap_append]

/-- INIT latches its four single nibbles and then its four commands (42_lifecycle.md R69): each transmission finds EN not high and
leaves it so. -/
theorem latches_initEvents (c : CommandBytes) :
    latches (initEvents c)
      = initLatches ++ byteLatches false c.functionSet ++ byteLatches false c.displayOnCursorOn ++ byteLatches false c.clear
        ++ byteLatches false c.entryModeInc := by
  simp [latches, initEvents, latchesFrom, latchAt, replayEvent, setLine, lineOf, lineConfigured, lineDriven, LineSet.fresh,
    latchesFrom_append, latchesFrom_nibbleEvents, latchesFrom_byteEvents, replay_nibbleEvents, replay_byteEvents, initLatches]

theorem latchesPaired_initEvents (c : CommandBytes) : LatchesPaired (initEvents c) := by
  refine ⟨?_, [(false, c.functionSet), (false, c.displayOnCursorOn), (false, c.clear), (false, c.entryModeInc)], ?_⟩
  · rw [initEvents, replay_append, replay_append, replay_byteEvents]
    exact afterByte_en_ne false c.entryModeInc _
  · simp [latches_initEvents]

/-- After INIT, an engine is paired when its trace is. -/
theorem paired_iff {e : Engine} (ht : Tracked e) (hl : e.life = .ready ∨ e.life = .tornDown) :
    Paired e ↔ (NoFailedCall e.trace → LatchesPaired e.trace) := by
  have hen := (ht .en).2
  simp only [lineOf] at hen
  rcases hl with hl | hl <;> simp only [Paired, LatchesPaired, hl, hen]

/-- Before INIT and after one that failed, an engine is paired when its trace is empty. -/
theorem paired_of_trace_nil {e : Engine} (ht : Tracked e) (hl : e.life = .constructed ∨ e.life = .failed)
    (hnil : NoFailedCall e.trace → e.trace = []) : Paired e := by
  intro hc
  have hen := (ht .en).2
  rw [hnil hc] at hen
  refine ⟨(nomatch hen.symm.trans ·), ?_⟩
  rcases hl with hl | hl <;> simp only [hl, hnil hc] <;> rfl

/-! ## Requests keep the pairing -/

/-- A cut at a call leaves that call, failed. -/
theorem not_noFailedCall_cutAt {k : Nat} {evs : List Event} (h : k < callCount evs) : ¬NoFailedCall (cutAt k evs) := by
  induction evs generalizing k with
  | nil => exact absurd h (Nat.not_lt_zero k)
  | cons ev evs ih =>
    have tail : ∀ {j x}, j < callCount evs → ¬NoFailedCall (x :: cutAt j evs) :=
      fun hj hn => ih hj fun y hy => hn y (List.mem_cons_of_mem _ hy)
    cases ev with
    | dly t => exact tail h
    | wr r v ok | cfg r d ok =>
      cases k with
      | zero => simp [cutAt, NoFailedCall, callFailed]
      | succ k => exact tail (Nat.lt_of_succ_lt_succ h)

theorem callCount_append (xs ys : List Event) : callCount (xs ++ ys) = callCount xs + callCount ys := by
  induction xs with
  | nil => exact (Nat.zero_add _).symm
  | cons x xs ih => cases x <;> simp only [List.cons_append, callCount, ih] <;> omega

/-- Seven configurations and 94 writes (42_lifecycle.md R67). -/
theorem callCount_initEvents (c : CommandBytes) : callCount (initEvents c) = 101 := by
  simp [initEvents, callCount, callCount_append]

/-- An operation on outputs whose trace has no failed call came to its end. -/
theorem runActions_done_of_noFailedCall {as : List Action} (hop : ∀ a ∈ as, operationAction a) {e : Engine} {o : Oracle}
    (hout : Outputs e.lines) (hc : NoFailedCall (runActions as e o).engine.trace) : (runActions as e o).ending = .done := by
  obtain ⟨evs, htrace, hends⟩ := runActions_trace as e o
  rw [htrace, noFailedCall_append] at hc
  obtain ⟨_, hio, _⟩ := hends.precise
  obtain ⟨hacq, hcfg⟩ := operationAction_setup hop
  rcases runActions_ending as e o with h | h | h | h
  · exact h
  · exact absurd (by rw [h]; rfl) (hio hc.2)
  · exact absurd h (runActions_no_hwCfg hacq hcfg e o)
  · exact absurd h (runActions_writable (operationAction_writable hop hout)).1

/-- INIT on an empty trace: its 142 events on reliable answers, no event where an acquisition fails, and a failed call in the trace
where a later call does. -/
theorem execState_init_paired {s : State} (hl : s.engine.life = .constructed) (hnil : s.engine.trace = [])
    (ht : Tracked (execState .init s).engine) : Paired (execState .init s).engine := by
  rw [execState_init hl] at ht ⊢
  rcases reliable_or_failsAt 108 s.oracle with ho | ⟨k, hk, ho⟩
  · have hrun := runActions_reliable (writable_initBody Config.commandBytes s.engine) (by rwa [callsOf_initBody])
    refine (paired_iff ht (.inl (by rw [finish_engine, hrun]; rfl))).2 fun _ => ?_
    rw [finish_engine, hrun]
    simp only [applyActions_trace, eventsOf_initBody, hnil, List.nil_append]
    exact latchesPaired_initEvents _
  · obtain ⟨ls, hrun, _⟩ := runActions_initBody_failed (c := Config.commandBytes) (e := s.engine) hk ho
    refine paired_of_trace_nil ht (.inr (by rw [finish_engine, hrun]; rfl)) ?_
    rw [finish_engine, hrun]
    simp only [hnil, List.nil_append]
    split
    · exact fun _ => rfl
    · next h7 => exact fun hc => absurd hc (not_noFailedCall_cutAt (by rw [callCount_initEvents]; omega))

theorem lifeRule_ready {r : Request} (hr : r ≠ .init) (en : Ending) :
    lifeRule r.toInstr .ready en = .ready ∨ lifeRule r.toInstr .ready en = .tornDown := by
  cases r with
  | init => exact absurd rfl hr
  | deinit => exact .inr rfl
  | text _ | clear | home | shiftLeft | shiftRight | on | off | cursor _ => exact .inl rfl

/-- Every other allowed request adds whole bytes to the trace, or a failed call. -/
theorem paired_afterOperation {r : Request} {s : State} {body : List Action} (hl : s.engine.life = .ready) (hr : r ≠ .init)
    (hb : bodyOf r.toInstr s.engine.cursor = some body) (hop : ∀ a ∈ body, operationAction a) (hout : Outputs s.engine.lines)
    (ht : Tracked s.engine) (hp : Paired s.engine) :
    Paired (finish (lifeRule r.toInstr) (runActions body s.engine s.oracle) s).engine := by
  have ht' : Tracked (finish (lifeRule r.toInstr) (runActions body s.engine s.oracle) s).engine :=
    runActions_tracked body s.engine s.oracle ht
  refine (paired_iff ht' ?_).2 fun hc => ?_
  · simp only [finish_engine, runActions_life, hl]
    exact lifeRule_ready hr _
  · have hdone := runActions_done_of_noFailedCall hop hout hc
    simp only [finish_engine, runActions_done hdone, applyActions_trace] at hc ⊢
    rw [noFailedCall_append] at hc
    exact ((paired_iff ht (.inl hl)).1 hp hc.1).append (latchWholeBytes_body hr hb)

/-- What the pairing of an engine rests on, and the pairing. -/
structure PairedInv (e : Engine) : Prop where
  inv : EngineInv e
  tracked : Tracked e
  paired : Paired e

theorem execState_pairedInv (r : Request) (s : State) (h : PairedInv s.engine) : PairedInv (execState r.toInstr s).engine where
  inv := execState_engineInv r s h.inv
  tracked := execState_tracked r.toInstr s h.tracked
  paired := by
    refine execState_engine h.paired (fun body hb hallowed => ?_) fun _ _ _ => h.paired
    have ha := hallowed r (requestOf_toInstr r)
    rcases allowed_body ha hb with ⟨hl, rfl, rfl⟩ | ⟨hl, hr, hop⟩
    · obtain ⟨_, hnil⟩ := h.inv.untouched hl
      have hinit := execState_init_paired hl hnil (execState_tracked .init s h.tracked)
      rwa [execState_init hl] at hinit
    · exact paired_afterOperation hl hr hb hop (fun q => (h.inv.usable (.inl hl) q).2.1) h.tracked h.paired

theorem pairedInv_fresh (l : List Byte) : PairedInv (Engine.fresh l) where
  inv := engineInv_fresh l
  tracked := tracked_fresh l
  paired := paired_of_trace_nil (tracked_fresh l) (.inl rfl) fun _ => rfl

/-- Settles O55: each way an agent's step changes an engine keeps the pairing with the two invariants it rests on. -/
theorem stepKeepsLatchesPaired : Obligations.StepKeepsLatchesPaired := by
  intro s t hinv htracked hpaired ht
  obtain rfl := (step_next_iff s t).1 ht
  rw [stepState_agents hinv.bench]
  have h : EveryEngine PairedInv s := fun d hd => ⟨hinv.engines d hd, htracked d hd, hpaired d hd⟩
  have hstep : EveryEngine PairedInv (agentsState s) :=
    agentsState_everyEngine
      (fun e c r he hr => ⟨engineInv_enqueue e c r he.inv hr, he.tracked, he.paired⟩)
      (fun e before p after he hp => ⟨engineInv_removePending e before p after he.inv hp, he.tracked, he.paired⟩)
      pairedInv_fresh execState_pairedInv s h
  exact fun d hd => (hstep d hd).paired

end Sys2Proof.Machine
end

section
/-! PROOFS. Words and their fields, what a word of each format must be to decode, and packets decoded and encoded. -/

namespace Sys2Proof.Machine

/-! ## A word as its fields -/

theorem field_field {n : Nat} (w : BitVec n) {lo len lo' len' : Nat} (h : lo' + len' ≤ len) :
    field (field w lo len) lo' len' = field w (lo + lo') len' := by
  ext k hk
  have hlt : lo' + k < len := by omega
  simp [hlt, Nat.add_assoc]

theorem eq_append_iff {m n : Nat} (w : BitVec (m + n)) (x : BitVec m) (y : BitVec n) :
    w = x ++ y ↔ field w n m = x ∧ field w 0 n = y := by
  constructor
  · rintro rfl
    exact ⟨BitVec.extractLsb'_append_eq_left, BitVec.extractLsb'_append_eq_right⟩
  · rintro ⟨rfl, rfl⟩
    exact BitVec.extractLsb'_append_extractLsb'.symm

theorem eq_append_append_iff {k m n : Nat} (w : BitVec (k + m + n)) (x : BitVec k) (y : BitVec m) (z : BitVec n) :
    w = x ++ y ++ z ↔ field w (n + m) k = x ∧ field w n m = y ∧ field w 0 n = z := by
  rw [eq_append_iff, eq_append_iff, field_field w (Nat.add_comm m k).le, field_field w (by omega), and_assoc, Nat.add_zero]

/-- The request word: OP, RSV and ARG (30_encoding.md R45). -/
theorem req16_eq_iff (w : BitVec 16) (op rsv : BitVec 4) (arg : Byte) :
    w = op ++ rsv ++ arg ↔ field w 12 4 = op ∧ field w 8 4 = rsv ∧ field w 0 8 = arg :=
  eq_append_append_iff w op rsv arg

/-- The GPIO call word: KIND, LINE, bit 2 and VAL (30_encoding.md R51). -/
theorem gpio8_eq_iff (g : BitVec 8) (kind : BitVec 2) (line : BitVec 3) (two : BitVec 1) (val : BitVec 2) :
    g = kind ++ line ++ two ++ val ↔ field g 6 2 = kind ∧ field g 3 3 = line ∧ field g 2 1 = two ∧ field g 0 2 = val := by
  have h := eq_append_append_iff (g : BitVec (5 + 1 + 2)) (kind ++ line) two val
  rwa [eq_append_iff, field_field g (by decide), field_field g (by decide), and_assoc] at h

/-- The latch word: RS, RW and a nibble (30_encoding.md R52). -/
theorem latch6_eq_iff (l : BitVec 6) (rs rw : BitVec 1) (n : Nibble) :
    l = rs ++ rw ++ n ↔ field l 5 1 = rs ∧ field l 4 1 = rw ∧ field l 0 4 = n :=
  eq_append_append_iff l rs rw n

/-- The paired byte: RS, RW and a byte (30_encoding.md R53). -/
theorem bus10_eq_iff (w : BitVec 10) (rs rw : BitVec 1) (b : Byte) :
    w = rs ++ rw ++ b ↔ field w 9 1 = rs ∧ field w 8 1 = rw ∧ field w 0 8 = b :=
  eq_append_append_iff w rs rw b

/-! ## Request words -/

theorem requestOfOp_eq_some_iff (op : BitVec 4) (p : List Byte) (r : Request) :
    requestOfOp op p = some r ↔ op = r.op ∧ (∀ t, r ≠ .cursor t) ∧ ∀ text, r = .text text → text = p := by
  constructor
  · intro h
    unfold requestOfOp at h
    split at h <;> cases h <;> next hop => exact ⟨BitVec.eq_of_toNat_eq hop, nofun, by simp⟩
  · rintro ⟨rfl, hcursor, htext⟩
    cases r with
    | cursor t => exact absurd rfl (hcursor t)
    | text text => rw [htext text rfl]; rfl
    | _ => rfl

/-- The two kinds of word that decode: CURSOR with any ARG, and the other operations with ARG 0 (30_encoding.md R47). -/
theorem decodeReq16_ok_cases (w : BitVec 16) (p : List Byte) (r : Request) :
    decodeReq16 w p = .ok r ↔ field w 8 4 = 0#4 ∧
      (field w 12 4 = 0xA#4 ∧ r = .cursor (field w 0 8) ∨ requestOfOp (field w 12 4) p = some r ∧ field w 0 8 = 0#8) := by
  unfold decodeReq16
  by_cases hrsv : field w 8 4 = 0#4
  · by_cases hop : field w 12 4 = 0xA#4
    · simp [hrsv, hop, requestOfOp, eq_comm]
    · cases hq : requestOfOp (field w 12 4) p with
      | none => simp [hrsv, hop, hq]
      | some q => by_cases harg : field w 0 8 = 0#8 <;> simp [hrsv, hop, hq, harg]
  · simp [hrsv]

/-- A word decodes to the one request whose word it is, a TEXT taking the payload beside it (30_encoding.md R47). -/
theorem decodeReq16_ok_iff (w : BitVec 16) (p : List Byte) (r : Request) :
    decodeReq16 w p = .ok r ↔ w = r.word ∧ ∀ text, r = .text text → text = p := by
  rw [Request.word, req16_eq_iff, decodeReq16_ok_cases, requestOfOp_eq_some_iff]
  cases r with
  | cursor t => simp [Request.op, Request.arg, and_left_comm, eq_comm]
  | _ => simp [Request.op, Request.arg, and_assoc, and_left_comm, and_comm]

/-! ## GPIO call words -/

theorem roleOfIndex_eq_some_iff (k : BitVec 3) (r : Role) : roleOfIndex k = some r ↔ k = r.index := by
  cases r <;> revert k <;> decide

/-- The GPIO words that decode are those of a CONFIGURE or WRITE of one of the seven lines (30_encoding.md R51). -/
theorem decodeGpio8_ok_iff (g : BitVec 8) (i : Instr) :
    decodeGpio8 g = .ok i ↔ ∃ r v, i = .configure r v ∧ g = 0#2 ++ r.index ++ 0#1 ++ v ∨
      i = .write r v ∧ g = 1#2 ++ r.index ++ 0#1 ++ v := by
  simp only [gpio8_eq_iff, ← roleOfIndex_eq_some_iff]
  unfold decodeGpio8
  by_cases htwo : field g 2 1 = 0#1
  · cases roleOfIndex (field g 3 3) with
    | none => simp [htwo]
    | some r =>
      by_cases h0 : field g 6 2 = 0#2
      · simp [htwo, h0, eq_comm]
      · by_cases h1 : field g 6 2 = 1#2
        · simp [htwo, h1, eq_comm]
        · simp [htwo, h0, h1]
  · simp [htwo]

/-! ## Latch words and paired bytes -/

theorem eq_ofBool_iff (x : BitVec 1) (b : Bit) : x = BitVec.ofBool b ↔ decide (x = 1#1) = b := by
  revert b x
  decide

/-- The latch words that decode are those with RW low (30_encoding.md R52). -/
theorem decodeLatch6_ok_iff (l : BitVec 6) (i : Instr) :
    decodeLatch6 l = .ok i ↔ ∃ rs n, i = .txNibble rs n ∧ l = BitVec.ofBool rs ++ 0#1 ++ n := by
  simp only [latch6_eq_iff, eq_ofBool_iff]
  unfold decodeLatch6
  by_cases hrw : field l 4 1 = 0#1 <;> simp [hrw, eq_comm]

/-- The paired bytes that decode are those with RW low, RS telling a character from a command (30_encoding.md R53). -/
theorem decodeBus10_ok_iff (w : BitVec 10) (i : Instr) :
    decodeBus10 w = .ok i ↔ ∃ (rs : Bit) (b : Byte), i = (if rs then .txChar b else .txCommand b) ∧
      w = BitVec.ofBool rs ++ 0#1 ++ b := by
  simp only [bus10_eq_iff, eq_ofBool_iff]
  unfold decodeBus10
  by_cases hrw : field w 8 1 = 0#1
  · by_cases hrs : field w 9 1 = 1#1 <;> simp [hrw, hrs, eq_comm]
  · simp [hrw]

/-! ## Command bytes -/

/-- The instruction of the first row with a byte: what `decodeHd8` looks up among the command bytes (30_encoding.md R54). -/
def commandOfByte (b : Byte) : List (Instr × Byte) → Except Reject Instr
  | [] => .error .unknownCommand
  | q :: rest => if b = q.2 then .ok q.1 else commandOfByte b rest

/-- The chain of R54's decoder is the look-up in the rows of the command bytes. -/
theorem decodeHd8_eq (c : CommandBytes) (b : Byte) : decodeHd8 c b = commandOfByte b (hdCommands c) := rfl

theorem commandOfByte_ok {b : Byte} {rows : List (Instr × Byte)} {i : Instr} (h : commandOfByte b rows = .ok i) :
    (i, b) ∈ rows := by
  induction rows with
  | nil => cases h
  | cons q rest ih =>
    rw [commandOfByte] at h
    split at h
    · next hb =>
      cases h
      exact hb ▸ List.mem_cons_self ..
    · exact List.mem_cons_of_mem q (ih h)

/-- Where the bytes are distinct, the first row with a byte is the only one. -/
theorem commandOfByte_of_mem {rows : List (Instr × Byte)} (hd : (rows.map Prod.snd).Nodup) {q : Instr × Byte} (hq : q ∈ rows) :
    commandOfByte q.2 rows = .ok q.1 := by
  induction rows with
  | nil => cases hq
  | cons row rest ih =>
    rw [List.map_cons, List.nodup_cons] at hd
    rcases List.mem_cons.1 hq with rfl | hrest
    · simp [commandOfByte]
    · have hne : q.2 ≠ row.2 := fun h => hd.1 (h ▸ List.mem_map_of_mem hrest)
      rw [commandOfByte, if_neg hne, ih hd.2 hrest]

theorem encodeWith_hdCommand {c : CommandBytes} {q : Instr × Byte} (hq : q ∈ hdCommands c) : encodeWith c q.1 = hdPacket q.2 := by
  simp only [hdCommands, List.mem_cons, List.not_mem_nil, or_false] at hq
  rcases hq with rfl | rfl | rfl | rfl | rfl | rfl | rfl | rfl | rfl | rfl | rfl <;> rfl

/-! ## Packets -/

/-- The decoder of a format, on a word of its width. -/
def decodeWord (c : CommandBytes) (f : Format) (w : BitVec f.width) (p : List Byte) : Except Reject Instr :=
  match f with
  | .req16 => (decodeReq16 w p).map Request.toInstr
  | .gpio8 => decodeGpio8 w
  | .latch6 => decodeLatch6 w
  | .bus10 => decodeBus10 w
  | .hd8 => decodeHd8 c w

/-- A packet is refused where its word is wider than its format, and is otherwise its format's word. -/
theorem decodeWith_eq (c : CommandBytes) (p : Packet) :
    decodeWith c p = if 2 ^ p.format.width ≤ p.word then .error .tooWide
      else decodeWord c p.format (BitVec.ofNat p.format.width p.word) p.payload := by
  obtain ⟨f, n, payload⟩ := p
  cases f with
  | req16 =>
    simp only [decodeWith, decodeWord, Format.width]
    cases decodeReq16 (BitVec.ofNat 16 n) payload <;> rfl
  | _ => rfl

theorem decodeWith_toNat (c : CommandBytes) (f : Format) (w : BitVec f.width) (p : List Byte) :
    decodeWith c ⟨f, w.toNat, p⟩ = decodeWord c f w p := by
  rw [decodeWith_eq, if_neg w.isLt.not_ge, BitVec.ofNat_toNat, BitVec.setWidth_eq]

theorem encodeWith_toInstr (c : CommandBytes) (r : Request) : encodeWith c r.toInstr = r.packet := by cases r <;> rfl

theorem toInstr_eq_text (r : Request) (text : List Byte) : r.toInstr = .text text ↔ r = .text text := by
  cases r <;> simp [Request.toInstr]

/-! ## Decoding what was encoded -/

theorem decodeWith_packet (c : CommandBytes) (r : Request) : decodeWith c r.packet = .ok r.toInstr := by
  have hword : decodeReq16 r.word r.payload = .ok r := (decodeReq16_ok_iff ..).2 ⟨rfl, fun _ h => by rw [h]; rfl⟩
  exact (decodeWith_toNat c .req16 r.word r.payload).trans (congrArg (Except.map Request.toInstr) hword)

theorem decodeWith_hdCommand {c : CommandBytes} (hc : c.Distinct) {i : Instr} (hi : i ∈ (hdCommands c).map Prod.fst) :
    decodeWith c (encodeWith c i) = .ok i := by
  obtain ⟨q, hq, rfl⟩ := List.mem_map.1 hi
  have hrows : ((hdCommands c).map Prod.snd).Nodup := hc
  rw [encodeWith_hdCommand hq]
  exact (decodeWith_toNat c .hd8 q.2 []).trans ((decodeHd8_eq c q.2).trans (commandOfByte_of_mem hrows hq))

/-- Settles O1: the word is the one its format's decoder asks for; of the command bytes, which are distinct, each is its row's
alone. -/
theorem decodeOfEncode : Obligations.DecodeOfEncode := by
  intro c hc i
  cases i with
  | init | deinit | text p | clear | home | shiftLeft | shiftRight | on | off | cursor t => exact decodeWith_packet c _
  | configure r v =>
    exact (decodeWith_toNat c .gpio8 _ []).trans ((decodeGpio8_ok_iff ..).2 ⟨r, v, .inl ⟨rfl, rfl⟩⟩)
  | write r v =>
    exact (decodeWith_toNat c .gpio8 _ []).trans ((decodeGpio8_ok_iff ..).2 ⟨r, v, .inr ⟨rfl, rfl⟩⟩)
  | txNibble rs n =>
    exact (decodeWith_toNat c .latch6 _ []).trans ((decodeLatch6_ok_iff ..).2 ⟨rs, n, rfl, rfl⟩)
  | txCommand b => exact (decodeWith_toNat c .bus10 _ []).trans (decodeBus10_byte false b)
  | txChar b => exact (decodeWith_toNat c .bus10 _ []).trans (decodeBus10_byte true b)
  | hdFunctionSet | hdDisplayOnCursorOn | hdClear | hdEntryModeInc | hdHome | hdDisplayShiftLeft | hdDisplayShiftRight
  | hdCursorShiftLeft | hdCursorShiftRight | hdAllOn | hdAllOff =>
    exact decodeWith_hdCommand hc (by simp [hdCommands])

/-! ## Encoding what was decoded -/

/-- A word that decodes is the word of what it decodes to, and a TEXT takes the payload beside it. -/
theorem decodeWord_ok {c : CommandBytes} {f : Format} {w : BitVec f.width} {p : List Byte} {i : Instr}
    (h : decodeWord c f w p = .ok i) :
    (encodeWith c i).format = f ∧ (encodeWith c i).word = w.toNat ∧ ∀ text, i = .text text → text = p := by
  cases f with
  | req16 =>
    cases hr : decodeReq16 w p with
    | error e => rw [decodeWord, hr] at h; cases h
    | ok r =>
      rw [decodeWord, hr] at h
      cases h
      obtain ⟨hw, htext⟩ := (decodeReq16_ok_iff ..).1 hr
      rw [encodeWith_toInstr, hw]
      exact ⟨rfl, rfl, fun text ht => htext text ((toInstr_eq_text r text).1 ht)⟩
  | gpio8 =>
    obtain ⟨r, v, ⟨rfl, hw⟩ | ⟨rfl, hw⟩⟩ := (decodeGpio8_ok_iff ..).1 h
    · exact ⟨rfl, by rw [hw]; rfl, nofun⟩
    · exact ⟨rfl, by rw [hw]; rfl, nofun⟩
  | latch6 =>
    obtain ⟨rs, n, rfl, hw⟩ := (decodeLatch6_ok_iff ..).1 h
    exact ⟨rfl, by rw [hw]; rfl, nofun⟩
  | bus10 =>
    obtain ⟨rs, b, rfl, hw⟩ := (decodeBus10_ok_iff ..).1 h
    cases rs <;> exact ⟨rfl, by rw [hw]; rfl, nofun⟩
  | hd8 =>
    have hq : (i, w) ∈ hdCommands c := commandOfByte_ok ((decodeHd8_eq c w).symm.trans h)
    have henc : encodeWith c i = hdPacket w := encodeWith_hdCommand hq
    refine ⟨by rw [henc]; rfl, by rw [henc]; rfl, ?_⟩
    rintro text rfl
    cases congrArg Packet.format henc

/-- Settles O2: a word that decodes is within its format's width, and is the word its format's decoder asks for. -/
theorem encodeOfDecode : Obligations.EncodeOfDecode := by
  intro c p i h
  rw [decodeWith_eq] at h
  split at h
  · cases h
  · next hlt =>
    have hw : (BitVec.ofNat p.format.width p.word).toNat = p.word := by
      rw [BitVec.toNat_ofNat, Nat.mod_eq_of_lt (not_le.1 hlt)]
    exact hw ▸ decodeWord_ok h

/-! ## Every request word -/

theorem eq_word_iff (w : BitVec 16) (r : Request) :
    w = r.word ↔ field w 12 4 = r.op ∧ field w 8 4 = 0#4 ∧ field w 0 8 = r.arg :=
  req16_eq_iff ..

theorem decodeReq16_error {w : BitVec 16} (h : ∀ r : Request, w ≠ r.word) (p : List Byte) : ∃ e, decodeReq16 w p = .error e := by
  cases hd : decodeReq16 w p with
  | error e => exact ⟨e, rfl⟩
  | ok r => exact absurd ((decodeReq16_ok_iff ..).1 hd).1 (h r)

theorem op_range (r : Request) : 1 ≤ r.op.toNat ∧ r.op.toNat ≤ 10 := by cases r <;> simp [Request.op]

theorem op_cursor_or_arg_zero (r : Request) : r.op.toNat = 10 ∨ r.arg = 0#8 := by cases r <;> simp [Request.op, Request.arg]

/-- The operations of OP 1 to 9 in order (30_encoding.md R46). -/
theorem requestOfOp_eq_getElem? {op : BitVec 4} (h1 : 1 ≤ op.toNat) (h9 : op.toNat ≤ 9) (p : List Byte) :
    requestOfOp op p = [.init, .deinit, .text p, .clear, .home, .shiftLeft, .shiftRight, .on, .off][op.toNat - 1]? := by
  unfold requestOfOp
  generalize op.toNat = n at h1 h9
  interval_cases n <;> rfl

/-- Settles O3: the words that decode are those of the ten requests, and their three fields tell them apart. -/
theorem requestWordDecoding : Obligations.RequestWordDecoding := by
  intro w p op arg
  refine ⟨fun hrsv => ?_, fun hrsv hop => ?_, fun hrsv h1 h9 harg => ?_, fun hop harg => ?_, fun hop => ?_⟩
  · exact decodeReq16_error (fun r hr => hrsv ((eq_word_iff w r).1 hr).2.1) p
  · exact (decodeReq16_ok_cases ..).2 ⟨hrsv, .inl ⟨BitVec.eq_of_toNat_eq hop, rfl⟩⟩
  · have hreq := requestOfOp_eq_getElem? h1 h9 p
    have hlt : op - 1 < 9 := by omega
    rw [List.getElem?_map, ← hreq]
    rw [List.getElem?_eq_getElem hlt] at hreq
    rw [hreq, Option.map_some, (decodeReq16_ok_cases ..).2 ⟨hrsv, .inr ⟨hreq, harg⟩⟩]
  · refine decodeReq16_error (fun r hr => ?_) p
    obtain ⟨hrop, _, hrarg⟩ := (eq_word_iff w r).1 hr
    rcases op_cursor_or_arg_zero r with h | h
    · exact hop ((congrArg BitVec.toNat hrop).trans h)
    · exact harg (hrarg.trans h)
  · refine decodeReq16_error (fun r hr => ?_) p
    have hrop : op = r.op.toNat := congrArg BitVec.toNat ((eq_word_iff w r).1 hr).1
    have := op_range r
    omega

end Sys2Proof.Machine
end

section
/-! PROOFS. Words at the machine: submission, the assembly lines, and words driven alone. -/

namespace Sys2Proof.Machine

/-! ## Submission -/

theorem argumentOk_eq_false_iff (r : Request) : argumentOk r = false ↔ ∃ t : Byte, r = .cursor t ∧ 80 ≤ t.toNat := by
  cases r with
  | cursor t =>
    have h : argumentOk (.cursor t) = false ↔ 80 ≤ t.toNat := decide_eq_false_iff_not.trans not_lt
    simp [h]
  | _ => simp [argumentOk, Request.toInstr, Instr.wellFormed]

/-- Settles O13: the word is decoded and its argument checked before it joins `pending`. -/
theorem submissionChecksTheRequest : Obligations.SubmissionChecksTheRequest := by
  intro s caller w p rest hb hi
  rw [step_eq, stepState_input hb hi]
  refine ⟨fun e he => ?_, fun r hr => ?_⟩
  · simp only [inputState, submit, he, reply]
  · simp only [inputState, submit, hr, enqueue, ← argumentOk_eq_false_iff]
    cases argumentOk r <;> rfl

/-! ## Words written out -/

/-- Settles O4: eleven closed words. -/
theorem wordsWrittenOut : Obligations.WordsWrittenOut := by
  unfold Obligations.WordsWrittenOut
  decide

/-- Settles O5: ten closed lines. -/
theorem assemblyGivesTheWords : Obligations.AssemblyGivesTheWords := by
  unfold Obligations.AssemblyGivesTheWords
  decide

/-! ## Words driven alone -/

theorem step_bench {s : State} {p : Packet} (h : s.bench = some p) : step s = runBench p { s with bench := none } := by
  simp [step, h]

/-- Settles O6: the step is the word's, on the state with the word taken away. -/
theorem stepRunsThePresentedWord : Obligations.StepRunsThePresentedWord := by
  intro s p hp
  rw [step_bench hp]
  refine ⟨fun i hi => runBench_ok hi _, fun e he => ?_⟩
  simp only [runBench, he, argumentError, returning]

theorem cellOfTarget_eq_none {t : Byte} (h : 80 ≤ t.toNat) : cellOfTarget t = none := dif_neg h.not_gt

/-- Settles O44: no cell is named, which is found before the lifecycle is looked at. -/
theorem argumentErrorComesFirst : Obligations.ArgumentErrorComesFirst := by
  intro s t ht
  simp only [exec, execCursor, cellOfTarget_eq_none ht, argumentError, returning]

end Sys2Proof.Machine
end

section
/-! PROOFS. The line calls: what CONFIGURE and WRITE do to their own line, that they leave every other, and the level every output
holds. -/

namespace Sys2Proof.Machine

/-! ## The VAL field -/

theorem directionOfVal_eq_none {val : BitVec 2} (h : 2 ≤ val.toNat) : directionOfVal val = none := by
  revert val
  decide

/-- VAL 0 is INPUT and VAL 1 is OUTPUT (40_gpio_lines.md R58). -/
theorem directionOfVal_eq_some {val : BitVec 2} {d : Direction} (h : (val = 0#2 ∧ d = .input) ∨ (val = 1#2 ∧ d = .output)) :
    directionOfVal val = some d := by
  rcases h with ⟨rfl, rfl⟩ | ⟨rfl, rfl⟩ <;> rfl

theorem levelOfVal_eq_none {val : BitVec 2} (h : 2 ≤ val.toNat) : levelOfVal val = none := by
  revert val
  decide

@[simp] theorem levelOfVal_ofNat_toNat (v : Bit) : levelOfVal (BitVec.ofNat 2 v.toNat) = some v := by cases v <;> rfl

/-! ## A line call and its answer -/

/-- A run of one action is that action, however it ends. -/
theorem runActions_single (a : Action) (e : Engine) (o : Oracle) : runActions [a] e o = doAction a e o := by
  simp only [runActions]
  split
  · next hdone => rw [← hdone]
  · rfl
  · rfl

/-- Settles O20: a VAL that is a direction makes one configuration, which succeeds or fails with the answer. -/
theorem configureSetsTheDirection : Obligations.ConfigureSetsTheDirection := by
  intro s r val
  refine ⟨fun hval => ?_, fun d hd => ?_⟩
  · simp only [exec, execConfigure, directionOfVal_eq_none hval, argumentError, returning]
  · simp only [exec, execConfigure, directionOfVal_eq_some hd, alone, runActions_single, doAction, configureLine]
    refine ⟨fun hok => ?_, fun hfail => ?_⟩
    · rw [hok]
      cases d <;> rfl
    · rw [hfail]
      rfl

/-- Settles O21: a VAL that is a level makes one write, which on an output succeeds or fails with the answer. -/
theorem writeDrivesTheLevel : Obligations.WriteDrivesTheLevel := by
  intro s r val
  refine ⟨fun hval => ?_, fun v hv hout => ?_⟩
  · simp only [exec, execWrite, levelOfVal_eq_none hval, argumentError, returning]
  · simp only [exec, execWrite, hv, levelOfVal_ofNat_toNat, alone, runActions_single, doAction, writeLine, if_pos hout]
    refine ⟨fun hok => ?_, fun hfail => ?_⟩
    · rw [hok]
      rfl
    · rw [hfail]
      rfl

/-! ## The multiplexer -/

/-- The role whose line an action reaches; none for a wait and a cursor move (40_gpio_lines.md R56). -/
def roleOfAction (a : Action) : Option Role :=
  match a with
  | .acquire r | .configure r _ | .write r _ => some r
  | .delay _ | .moveCursor _ => none

/-- An action keeps the lines it does not reach, whatever the answer. -/
theorem doAction_line_other {a : Action} {q : Role} (h : roleOfAction a ≠ some q) (e : Engine) (o : Oracle) :
    lineOf (doAction a e o).engine.lines q = lineOf e.lines q := by
  cases a with
  | acquire r =>
    have hq : q ≠ r := fun hq => h (hq ▸ rfl)
    simp only [doAction, acquireLine]
    split
    · exact lineOf_onLine_other hq ..
    · rfl
  | configure r d =>
    have hq : q ≠ r := fun hq => h (hq ▸ rfl)
    simp only [doAction, configureLine]
    split
    · exact lineOf_onLine_other hq ..
    · rfl
  | write r v =>
    have hq : q ≠ r := fun hq => h (hq ▸ rfl)
    simp only [doAction, writeLine]
    split
    · split
      · exact lineOf_onLine_other hq ..
      · rfl
    · rfl
  | delay t => rfl
  | moveCursor m => rfl

theorem runActions_line_other {as : List Action} {q : Role} (h : ∀ a ∈ as, roleOfAction a ≠ some q) (e : Engine) (o : Oracle) :
    lineOf (runActions as e o).engine.lines q = lineOf e.lines q :=
  runActions_induct (P := fun e' => lineOf e'.lines q = lineOf e.lines q)
    (fun a ha e' o' he => (doAction_line_other (h a ha) e' o').trans he) e o rfl

/-- An instruction keeps a line that no action of its body reaches. -/
theorem execState_line_other {i : Instr} {s : State} {q : Role}
    (h : ∀ body, bodyOf i s.engine.cursor = some body → ∀ a ∈ body, roleOfAction a ≠ some q) :
    lineOf (execState i s).engine.lines q = lineOf s.engine.lines q :=
  execState_engine (P := fun e => lineOf e.lines q = lineOf s.engine.lines q) rfl
    (fun body hb _ => runActions_line_other (h body hb) _ _) fun _ _ _ => rfl

/-- Settles O23: the body of a line call is one action, on its own role. -/
theorem lineCallsReachOneLine : Obligations.LineCallsReachOneLine := by
  rintro s t r q val hq (ht | ht)
  · obtain rfl := (exec_next_iff ..).1 ht
    refine execState_line_other fun body hb => ?_
    obtain ⟨d, _, rfl⟩ := Option.map_eq_some_iff.1 hb
    simpa [roleOfAction] using hq.symm
  · obtain rfl := (exec_next_iff ..).1 ht
    refine execState_line_other fun body hb => ?_
    obtain ⟨v, _, rfl⟩ := Option.map_eq_some_iff.1 hb
    simpa [roleOfAction] using hq.symm

/-! ## Every output holds a level -/

/-- An update of one line keeps the levels of outputs where the updated line, if it is an output, holds one. -/
theorem outputsHoldLevels_onLine {r : Role} {f : Line → Line} {e : Engine} (h : OutputsHoldLevels e)
    (hf : (f (lineOf e.lines r)).dir = .output → (f (lineOf e.lines r)).lvl.isSome = true) :
    OutputsHoldLevels (onLine r f e) := by
  intro q
  rw [onLine_lines, lineOf_setLine]
  split
  · exact hf
  · exact h q

/-- A line just configured holds a level if it is an output: OUTPUT drives it low (40_gpio_lines.md R58). -/
theorem lineConfigured_holdsLevel (d : Direction) (l : Line) (h : (lineConfigured d l).dir = .output) :
    (lineConfigured d l).lvl.isSome = true := by
  cases d with
  | output => rfl
  | input => cases h

/-- A success leaves an output with a level, and a failure leaves the lines as they were. -/
theorem doAction_outputsHoldLevels (a : Action) (e : Engine) (o : Oracle) (h : OutputsHoldLevels e) :
    OutputsHoldLevels (doAction a e o).engine := by
  cases a with
  | acquire r =>
    simp only [doAction, acquireLine]
    split
    · exact outputsHoldLevels_onLine h (h r)
    · exact h
  | configure r d =>
    simp only [doAction, configureLine]
    split
    · exact outputsHoldLevels_onLine h (lineConfigured_holdsLevel d _)
    · exact h
  | write r v =>
    simp only [doAction, writeLine]
    split
    · split
      · exact outputsHoldLevels_onLine h fun _ => rfl
      · exact h
    · exact h
  | delay t => exact h
  | moveCursor m => exact h

theorem runActions_outputsHoldLevels (as : List Action) (e : Engine) (o : Oracle) (h : OutputsHoldLevels e) :
    OutputsHoldLevels (runActions as e o).engine :=
  runActions_induct (fun a _ e o => doAction_outputsHoldLevels a e o) e o h

theorem outputsHoldLevels_fresh (l : List Byte) : OutputsHoldLevels (Engine.fresh l) := by
  intro r hr
  cases r <;> cases hr

theorem execState_outputsHoldLevels (i : Instr) (s : State) (h : OutputsHoldLevels s.engine) :
    OutputsHoldLevels (execState i s).engine :=
  execState_engine h (fun body _ _ => runActions_outputsHoldLevels body s.engine s.oracle h) fun _ _ _ => h

/-- Settles O52: no instruction leaves an output without a level, and no other step touches a line but construction, which makes
no output. -/
theorem stepKeepsOutputLevels : Obligations.StepKeepsOutputLevels := by
  intro s t h ht
  obtain rfl := (step_next_iff s t).1 ht
  exact stepState_everyEngine (fun _ _ h => h) outputsHoldLevels_fresh execState_outputsHoldLevels s h

end Sys2Proof.Machine
end

section
/-! PROOFS. Transmissions and commands that a failed write ends. -/

namespace Sys2Proof.Machine

/-! ## A transmission whose `k`-th call fails -/

section FailedTransmission

variable {as : List Action} {s : State} {k : Nat}

/-- A transmission whose `k`-th call fails, in front of more actions, which never happen: a cursor move behind it among them. -/
theorem finish_transmission_failed (life : Life → Ending → Life) (ha : ∀ a ∈ as, TransmissionAction a) (more : List Action)
    (hw : Writable as s.engine) (hk : k < callsOf as) (ho : failsAt k s.oracle = true) :
    finish life (runActions (as ++ more) s.engine s.oracle) s
      = failedWrite (eventsOf as) k s.engine.cursor (life s.engine.life (.raised .eIo)) s := by
  obtain ⟨c, hrun, hcursor⟩ := runActions_failsAt (fun _ hr => ha _ hr) (fun _ _ hr => ha _ hr) hw hk ho
  obtain rfl : c = s.engine.cursor := hcursor fun _ hm => ha _ hm
  rw [runActions_append_stops more hw hk ho, hrun]
  rfl

theorem finish_txByte_failed (life : Life → Ending → Life) (rs : Bit) (b : Byte) (more : List Action)
    (hout : Outputs s.engine.lines) (hk : k < 16) (ho : failsAt k s.oracle = true) :
    finish life (runActions (txByte rs b ++ more) s.engine s.oracle) s
      = failedWrite (byteEvents rs b) k s.engine.cursor (life s.engine.life (.raised .eIo)) s :=
  finish_transmission_failed life (transmissionAction_txByte rs b) more (writable_txByte rs b hout) (by simpa using hk) ho

theorem alone_txNibble_failed (n : Nibble) (hout : Outputs s.engine.lines) (hk : k < 7) (ho : failsAt k s.oracle = true) :
    alone (txNibble n) s = failedWrite (nibbleEvents n) k s.engine.cursor s.engine.life s := by
  have h := finish_transmission_failed lifeKept (transmissionAction_txNibble n) []
    (writable_txNibble n fun r _ => hout r) hk ho
  rwa [List.append_nil] at h

theorem alone_txCommand_failed (b : Byte) (hout : Outputs s.engine.lines) (hk : k < 16) (ho : failsAt k s.oracle = true) :
    alone (txCommand b) s = failedWrite (byteEvents false b) k s.engine.cursor s.engine.life s := by
  have h := finish_txByte_failed lifeKept false b [] hout hk ho
  rwa [List.append_nil] at h

/-- A request that sends a command and then does more, whose `k`-th call fails. -/
theorem exec_commandRequest_failed {r : Request} {b : Byte} {more : List Action}
    (hb : bodyOf r.toInstr s.engine.cursor = some (txCommand b ++ more)) (hr : r ≠ .init) (hlife : s.engine.life = .ready)
    (hout : Outputs s.engine.lines) (hk : k < 16) (ho : failsAt k s.oracle = true) :
    exec r.toInstr s = .next
      (failedWrite (byteEvents false b) k s.engine.cursor (lifeRule r.toInstr .ready (.raised .eIo)) s) := by
  have hallowed : lifeAllows s.engine.life r = true := (lifeAllows_iff ..).2 (.inr ⟨hlife, hr⟩)
  rw [exec_eq, execState_allowed hallowed hb, ← hlife]
  exact congrArg _ (finish_txByte_failed _ false b more hout hk ho)

end FailedTransmission

/-- Settles O36: a nibble, a byte with or without the cursor's advance behind it, and the command bytes. -/
theorem failedWriteEndsATransmission : Obligations.FailedWriteEndsATransmission := by
  intro s k hout ho
  refine ⟨fun rs n hk => ?_, fun b hk => ⟨?_, ?_⟩, fun q hq hk => ?_⟩
  · exact congrArg _ (alone_txNibble_failed n hout hk ho)
  · exact congrArg _ (alone_txCommand_failed b hout hk ho)
  · exact congrArg _ (finish_txByte_failed lifeKept true b [.moveCursor .advance] hout hk ho)
  · rw [exec_hdCommand hq, alone_txCommand_failed q.2 hout hk ho]

/-- Settles O35: each body is a command and more actions behind it, and the failed write ends it before those. -/
theorem failedWriteEndsACommand : Obligations.FailedWriteEndsACommand := by
  intro s k hlife hout hk ho q hq
  have command := fun (r : Request) (b : Byte) (more : List Action)
      (hb : bodyOf r.toInstr s.engine.cursor = some (txCommand b ++ more)) (hr : r ≠ .init) =>
    exec_commandRequest_failed hb hr hlife hout hk ho
  simp only [List.mem_cons, List.not_mem_nil, or_false] at hq
  rcases hq with rfl | rfl | rfl | rfl | rfl | rfl | rfl
  · exact command .clear _ _ rfl nofun
  · exact command .home _ _ rfl nofun
  · exact command .shiftLeft _ _ rfl nofun
  · exact command .shiftRight _ _ rfl nofun
  · exact command .on _ _ rfl nofun
  · exact command .off _ _ rfl nofun
  · exact command .deinit _ _ rfl nofun

end Sys2Proof.Machine
end

section
/-! PROOFS. Where the engines after a step of an agent come from. -/

namespace Sys2Proof.Machine

/-! ## Engines after a step -/

/-- The lifecycle forbids the request: nothing is appended (44_dispatch.md R85). -/
theorem execState_forbidden_trace {r : Request} {s : State} (h : lifeAllows s.engine.life r = false) :
    (execState r.toInstr s).engine.trace = s.engine.trace :=
  execState_engine (P := fun e => e.trace = s.engine.trace) rfl
    (fun _ _ hallowed => by simp [hallowed r (requestOf_toInstr r)] at h) fun _ _ _ => rfl

/-- `d` is `d₀` after one of its own pending requests ran on it with its own collaborator (44_dispatch.md R84). -/
def RanPending (d₀ d : Display) : Prop :=
  ∃ (before after : List Pending) (p : Pending) (u v : State),
    d₀.engine.pending = before ++ p :: after ∧ u.engine = { d₀.engine with pending := before ++ after } ∧
    u.oracle.answers = d₀.oracle.answers ∧ u.oracle.stream = d₀.oracle.stream ∧
    exec p.request.toInstr u = .next v ∧ d = ⟨v.engine, v.oracle⟩ ∧
    (lifeAllows d₀.engine.life p.request = false → d.engine.trace = d₀.engine.trace)

/-- `d` is one of the displays `ds` with at most its pending requests changed, or after one of its own pending requests. -/
def CameFrom (ds : List Display) (d : Display) : Prop :=
  ∃ d₀ ∈ ds, (∃ ps : List Pending, d.engine = { d₀.engine with pending := ps }) ∨ RanPending d₀ d

theorem cameFrom_of_mem {ds : List Display} {d : Display} (h : d ∈ ds) : CameFrom ds d := ⟨d, h, .inl ⟨_, rfl⟩⟩

/-- Only the first engine of the displays changes, in its pending requests. -/
theorem cameFrom_of_pending {s t : State} (hothers : t.others = s.others)
    (hengine : ∃ ps, t.engine = { s.engine with pending := ps }) : ∀ d ∈ displays t, CameFrom (displays s) d := by
  intro d hd
  rcases (mem_displays d t).1 hd with rfl | hd
  · exact ⟨_, (mem_displays _ s).2 (.inl rfl), .inl hengine⟩
  · exact cameFrom_of_mem ((mem_displays d s).2 (.inr (hothers ▸ hd)))

theorem submit_cameFrom (c : Caller) (w : BitVec 16) (p : List Byte) (s : State) :
    ∀ d ∈ displays (submit c w p s), CameFrom (displays s) d := by
  unfold submit enqueue
  split
  · split
    · exact cameFrom_of_pending rfl ⟨_, rfl⟩
    · exact fun _ => cameFrom_of_mem
  · exact fun _ => cameFrom_of_mem

theorem useSurface_cameFrom (c : Caller) (sf : Surface) (s : State) :
    ∀ d ∈ displays (useSurface c sf s), CameFrom (displays s) d := by
  unfold useSurface
  split
  · exact submit_cameFrom c _ _ s
  · exact fun _ => cameFrom_of_mem

theorem cancel_cameFrom (k : Nat) (s : State) : ∀ d ∈ displays (cancel k s), CameFrom (displays s) d := by
  unfold cancel
  split
  · exact cameFrom_of_pending rfl ⟨_, rfl⟩
  · exact fun _ => cameFrom_of_mem

theorem turnTo_cameFrom (k : Nat) (s : State) : ∀ d ∈ displays (turnTo k s), CameFrom (displays s) d :=
  fun _ hd => cameFrom_of_mem ((turnTo_displays k s).mem_iff.1 hd)

/-- An admission runs a pending request of the first engine, or nothing. -/
theorem admitState_cameFrom (k : Nat) (s : State) : ∀ d ∈ displays (admitState k s), CameFrom (displays s) d := by
  intro d hd
  rcases admitState_cases k s with ⟨_, he⟩ | ⟨before, after, p, hp, he⟩
  · exact cameFrom_of_mem (he ▸ hd)
  · rw [he, mem_displays, replyReturned_engine, replyReturned_oracle, replyReturned_others] at hd
    obtain ⟨_, _, hothers, _⟩ := execState_frame p.request.toInstr (setPending (before ++ after) s)
    rcases hd with rfl | hd
    · have hran : RanPending ⟨s.engine, s.oracle⟩ _ := ⟨before, after, p, setPending (before ++ after) s, _, hp, rfl, rfl, rfl,
        exec_eq .., rfl, execState_forbidden_trace (s := setPending (before ++ after) s)⟩
      exact ⟨_, (mem_displays _ s).2 (.inl rfl), .inr hran⟩
    · exact cameFrom_of_mem ((mem_displays d s).2 (.inr (hothers ▸ hd)))

/-- The free value that an engine's own choice draws is no answer of its collaborator. -/
theorem CameFrom.of_drawn {s : State} {d : Display} (h : CameFrom (displays (drawn s)) d) : CameFrom (displays s) d := by
  obtain ⟨d₀, hd₀, h⟩ := h
  rcases (mem_displays d₀ _).1 hd₀ with rfl | hd₀
  · exact ⟨⟨s.engine, s.oracle⟩, (mem_displays _ s).2 (.inl rfl), h⟩
  · exact ⟨d₀, (mem_displays d₀ s).2 (.inr hd₀), h⟩

/-- The engine that proceeds comes to the front and admits one of its own pending requests. -/
theorem enginesState_cameFrom (s : State) : ∀ d ∈ displays (enginesState s), CameFrom (displays s) d := by
  intro d hd
  rcases enginesState_cases s with ⟨_, he⟩ | ⟨j, _, _, _, _, he⟩
  · exact cameFrom_of_mem (he ▸ hd)
  · rw [he] at hd
    obtain ⟨d₀, hd₀, h⟩ := (admitState_cameFrom _ _ d hd).of_drawn
    exact ⟨d₀, (turnTo_displays j { s with turns := s.turns + 1 }).mem_iff.1 hd₀, h⟩

/-- An input makes a fresh engine by construction alone. -/
theorem inputState_cameFrom {i : Input} (hi : ∀ x, i ≠ .construct x) (s : State) :
    ∀ d ∈ displays (inputState i s), CameFrom (displays s) d := by
  cases i with
  | construct x => exact absurd rfl (hi x)
  | turnTo k => exact turnTo_cameFrom k s
  | submit c w p => exact submit_cameFrom c w p s
  | surface c sf => exact useSurface_cameFrom c sf s
  | admitOne k => exact admitState_cameFrom k s
  | cancel k => exact cancel_cameFrom k s
  | readKeywords c | readLabel c => exact fun _ => cameFrom_of_mem

/-- Every engine after an agent's step is the fresh one of a construction, or came from one before. -/
theorem agentsState_cameFrom (s : State) : ∀ d ∈ displays (agentsState s),
    (∃ l x rest, s.inputs = .construct x :: rest ∧ d.engine = Engine.fresh l) ∨ CameFrom (displays s) d := by
  intro d hd
  unfold agentsState at hd
  split at hd
  · next i rest hinputs =>
    by_cases hi : ∃ x, i = .construct x
    · obtain ⟨x, rfl⟩ := hi
      rcases List.mem_cons.1 hd with rfl | hd
      · exact .inl ⟨_, x, rest, hinputs, rfl⟩
      · exact .inr (cameFrom_of_mem hd)
    · exact .inr (inputState_cameFrom (fun x hx => hi ⟨x, hx⟩) { s with inputs := rest } d hd)
  · exact .inr (enginesState_cameFrom s d hd)

/-- Settles O12: no agent drives a word alone, and each way an agent's step makes an engine is one of the three. -/
theorem onlyAdmittedRequestsChangeAnEngine : Obligations.OnlyAdmittedRequestsChangeAnEngine := by
  intro s t hbench ht
  obtain rfl := (step_next_iff s t).1 ht
  rw [stepState_agents hbench]
  exact ⟨(agentsState_bench s).trans hbench, agentsState_cameFrom s⟩

end Sys2Proof.Machine
end

section
/-! PROOFS. Requests whose calls are all answered ok: clear, home and DEINIT, and INIT with the pattern it latches. -/

namespace Sys2Proof.Machine

/-! ## Requests that complete -/

section Completion

variable {as : List Action} {s : State}

/-- A run whose calls are all answered ok ends in OK, with the events, the lines and the cursor its actions leave. -/
theorem finish_reliable (life : Life → Ending → Life) (hw : Writable as s.engine)
    (ho : reliable (callsOf as) s.oracle = true) :
    finish life (runActions as s.engine s.oracle) s
      = succeeded (eventsOf as) (applyActions as s.engine).lines (applyActions as s.engine).cursor
          (life s.engine.life .done) (callsOf as) s := by
  have hfault := (runActions_writable (o := s.oracle) hw).2
  rw [runActions_eq, hfault, runActions_reliable hw ho, applyActions_trace]
  rfl

/-- An allowed request whose calls are all answered ok (44_dispatch.md R84). -/
theorem exec_reliable {r : Request} (hallowed : lifeAllows s.engine.life r = true)
    (hb : bodyOf r.toInstr s.engine.cursor = some as) (hw : Writable as s.engine)
    (ho : reliable (callsOf as) s.oracle = true) :
    exec r.toInstr s = .next
      (succeeded (eventsOf as) (applyActions as s.engine).lines (applyActions as s.engine).cursor
        (lifeRule r.toInstr s.engine.life .done) (callsOf as) s) := by
  rw [exec_eq, execState_allowed hallowed hb, finish_reliable _ hw ho]

end Completion

/-! ## A command, the cursor's reset and a wait -/

/-- A request that sends a command, resets the cursor and waits (43_operations.md R73, R74). -/
theorem exec_homingRequest {r : Request} {b : Byte} {t : Nat} {s : State}
    (hb : bodyOf r.toInstr s.engine.cursor = some (txCommand b ++ [Action.moveCursor .toZero, Action.delay t])) (hr : r ≠ .init)
    (hlife : s.engine.life = .ready) (hout : Outputs s.engine.lines) (ho : reliable 16 s.oracle = true) :
    exec r.toInstr s = .next
      (succeeded (byteEvents false b ++ [Event.dly t]) (afterByte false b s.engine.lines) 0
        (lifeRule r.toInstr .ready .done) 16 s) := by
  have hallowed : lifeAllows s.engine.life r = true := (lifeAllows_iff ..).2 (.inr ⟨hlife, hr⟩)
  have hw : Writable (txCommand b ++ [Action.moveCursor .toZero, Action.delay t]) s.engine :=
    (writable_append ..).2 ⟨writable_txByte false b hout, by simp [Writable]⟩
  have hcalls : callsOf (txCommand b ++ [Action.moveCursor .toZero, Action.delay t]) = 16 := by
    simp [txCommand, callsOf_append, actionCalls]
  rw [exec_reliable hallowed hb hw (hcalls ▸ ho), hcalls, hlife, txCommand, eventsOf_append, eventsOf_txByte,
    applyActions_append, applyActions_txByte]
  rfl

/-- Settles O29: each body is a command, the cursor's reset and the 2 ms wait, and DEINIT's lifecycle rule alone leaves READY. -/
theorem clearAndHomeComplete : Obligations.ClearAndHomeComplete := by
  intro s hlife hout ho q hq
  simp only [List.mem_cons, List.not_mem_nil, or_false] at hq
  rcases hq with rfl | rfl | rfl
  · exact exec_homingRequest (r := .clear) rfl nofun hlife hout ho
  · exact exec_homingRequest (r := .home) rfl nofun hlife hout ho
  · exact exec_homingRequest (r := .deinit) rfl nofun hlife hout ho

/-! ## INIT -/

/-- INIT's last byte, the entry-mode command, writes every line (42_lifecycle.md R67). -/
theorem replay_powerOnSequence (c : CommandBytes) :
    replay linesConfigured (eventsOf (powerOnSequence c)) = linesAfterInit c := by
  simp only [powerOnSequence, clearBody, txCommand, eventsOf_append, eventsOf_txNibble, eventsOf_txByte, replay_append,
    replay_nibbleEvents, replay_byteEvents]
  simp [eventsOf, actionEvents, replay, replayEvent, afterByte, afterNibble, setLine, lineOf, lineDriven, linesConfigured,
    linesAfterInit, outputAt]

theorem applyActions_initBody_lines (c : CommandBytes) (e : Engine) :
    (applyActions (initBody c) e).lines = linesAfterInit c := by
  have hacquire := (operationAction_setup fun _ => operationAction_powerOnSequence (c := c)).1
  rw [initBody, applyActions_append, applyActions_setUp, applyActions_lines hacquire]
  exact replay_powerOnSequence c

/-- The embedded clear resets the cursor, and no later action moves it. -/
theorem applyActions_initBody_cursor (c : CommandBytes) (e : Engine) : (applyActions (initBody c) e).cursor = 0 := by
  rw [initBody_eq, applyActions_append, applyActions_cons,
    applyActions_cursor (by simp [initAfterReset, moveCursor_notMem_txCommand])]
  rfl

/-- Settles O32: all 108 answers are ok, and INIT's actions leave its events, its lines and the cursor at 0. -/
theorem initCompletes : Obligations.InitCompletes := by
  intro s hlife ho
  have hallowed : lifeAllows s.engine.life .init = true := (lifeAllows_iff ..).2 (.inl ⟨hlife, rfl⟩)
  have h := exec_reliable hallowed rfl (writable_initBody ..) (by rwa [callsOf_initBody])
  rwa [eventsOf_initBody, applyActions_initBody_lines, applyActions_initBody_cursor, callsOf_initBody] at h

/-- Settles O33: on an empty trace, a completed INIT leaves its own events alone, and those latch the pattern. -/
theorem initLatchesTheResetPattern : Obligations.InitLatchesTheResetPattern := by
  refine ⟨latches_initEvents, fun s hlife hnil ho => ⟨_, initCompletes s hlife ho, rfl, ?_⟩⟩
  simp only [succeeded, hnil, List.nil_append]
  exact latches_initEvents _

end Sys2Proof.Machine
end

section
/-! PROOFS. Requests that send one command and wait, and requests that send bytes with a cursor move after each: text and the
cursor. -/

namespace Sys2Proof.Machine

/-! ## A command and a wait -/

/-- A request that sends a command and waits, which leaves the cursor (43_operations.md R75 to R77, R80, R81). -/
theorem exec_waitingRequest {r : Request} {b : Byte} {t : Nat} {s : State}
    (hb : bodyOf r.toInstr s.engine.cursor = some (txCommand b ++ [Action.delay t])) (hr : r ≠ .init)
    (hlife : s.engine.life = .ready) (hout : Outputs s.engine.lines) (ho : reliable 16 s.oracle = true) :
    exec r.toInstr s = .next
      (succeeded (byteEvents false b ++ [Event.dly t]) (afterByte false b s.engine.lines) s.engine.cursor
        (lifeRule r.toInstr .ready .done) 16 s) := by
  have hallowed : lifeAllows s.engine.life r = true := (lifeAllows_iff ..).2 (.inr ⟨hlife, hr⟩)
  rw [exec_eq, execState_allowed hallowed hb, txCommand, runActions_txByte false b _ hout ho, ← hlife, succeeded,
    ← List.append_assoc]
  rfl

/-- Settles O28: each body is a command and the 100 µs wait. -/
theorem shiftAndSwitchOperationsComplete : Obligations.ShiftAndSwitchOperationsComplete := by
  intro s hlife hout ho q hq
  simp only [List.mem_cons, List.not_mem_nil, or_false] at hq
  rcases hq with rfl | rfl | rfl | rfl
  · exact exec_waitingRequest (r := .shiftLeft) rfl nofun hlife hout ho
  · exact exec_waitingRequest (r := .shiftRight) rfl nofun hlife hout ho
  · exact exec_waitingRequest (r := .on) rfl nofun hlife hout ho
  · exact exec_waitingRequest (r := .off) rfl nofun hlife hout ho

/-! ## Bytes with a cursor move after each -/

section BytesRequest

variable {r : Request} {rs : Bit} {m : CursorMove} {bs : List Byte} {s : State}

/-- A request that sends bytes and moves the cursor after each, on outputs that answer ok. -/
theorem exec_bytesRequest (hb : bodyOf r.toInstr s.engine.cursor = some (bytesBody rs m bs)) (hr : r ≠ .init)
    (hlife : s.engine.life = .ready) (hout : Outputs s.engine.lines) (ho : reliable (16 * bs.length) s.oracle = true) :
    exec r.toInstr s = .next
      (succeeded (bs.flatMap (byteEvents rs)) (bs.foldl (fun ls b => afterByte rs b ls) s.engine.lines)
        ((cursorAfter m)^[bs.length] s.engine.cursor) (lifeRule r.toInstr .ready .done) (16 * bs.length) s) := by
  have hallowed : lifeAllows s.engine.life r = true := (lifeAllows_iff ..).2 (.inr ⟨hlife, hr⟩)
  rw [exec_eq, execState_allowed hallowed hb, runActions_bytesBody rs m bs hout ho, ← hlife]
  rfl

/-- The same request with its `k`-th call failing: a cursor move for each completed byte, which made 16 calls. -/
theorem exec_bytesRequest_failed {k : Nat} (hb : bodyOf r.toInstr s.engine.cursor = some (bytesBody rs m bs)) (hr : r ≠ .init)
    (hlife : s.engine.life = .ready) (hout : Outputs s.engine.lines) (hk : k < 16 * bs.length)
    (ho : failsAt k s.oracle = true) :
    exec r.toInstr s = .next
      (failedWrite (bs.flatMap (byteEvents rs)) k ((cursorAfter m)^[k / 16] s.engine.cursor)
        (lifeRule r.toInstr .ready (.raised .eIo)) s) := by
  have hallowed : lifeAllows s.engine.life r = true := (lifeAllows_iff ..).2 (.inr ⟨hlife, hr⟩)
  rw [exec_eq, execState_allowed hallowed hb, runActions_bytesBody_failed rs m bs hout hk ho, ← hlife]
  rfl

end BytesRequest

/-! ## Text -/

/-- Settles O30: a text's body is its first 80 bytes, with the cursor's advance after each. -/
theorem textCompletes : Obligations.TextCompletes := by
  intro s p hlife hout ho
  rw [Nat.min_comm, ← List.length_take] at ho ⊢
  rw [← iterate_advance]
  exact exec_bytesRequest (r := .text p) rfl nofun hlife hout ho

/-- Settles O37: the cursor has advanced for each completed character. -/
theorem failedWriteEndsAText : Obligations.FailedWriteEndsAText := by
  intro s p k hlife hout hk ho
  rw [Nat.min_comm, ← List.length_take] at hk
  rw [← iterate_advance]
  exact exec_bytesRequest_failed (r := .text p) rfl nofun hlife hout hk ho

/-! ## The cursor -/

/-- The linear distance between two cells (43_operations.md R78). -/
def cursorDistance (target here : Fin 80) : Nat := (target.val - here.val) + (here.val - target.val)

/-- The step of setCursor that leads towards the target (43_operations.md R78). -/
def stepTowards (target here : Fin 80) : CursorMove := if here < target then .stepRight else .stepLeft

/-- The command sent with each of these steps (43_operations.md R79). -/
def shiftTowards (c : CommandBytes) (target here : Fin 80) : Byte :=
  if here < target then c.cursorShiftRight else c.cursorShiftLeft

theorem cursorBody_eq_steps (c : CommandBytes) (target here : Fin 80) :
    cursorBody c target here
      = bytesBody false (stepTowards target here)
          (List.replicate (cursorDistance target here) (shiftTowards c target here)) := by
  rw [cursorBody_eq, stepTowards, shiftTowards, cursorDistance]
  split
  next hlt => rw [Nat.sub_eq_zero_of_le (Nat.le_of_lt hlt), Nat.add_zero]
  next hge => rw [Nat.sub_eq_zero_of_le (Nat.not_lt.1 hge), Nat.zero_add]

/-- No step towards the target wraps: the cursor moves by the number of steps, up or down. -/
theorem iterate_stepTowards {n : Nat} {target here : Fin 80} (hn : n ≤ cursorDistance target here) :
    (cursorAfter (stepTowards target here))^[n] here
      = Fin.ofNat 80 (if here < target then here.val + n else here.val - n) := by
  rw [cursorDistance] at hn
  unfold stepTowards
  split
  next => exact iterate_stepRight n here
  next hge => exact iterate_stepLeft n here (by rw [Fin.lt_def] at hge; omega)

/-- As many steps as the linear distance end at the target. -/
theorem iterate_stepTowards_distance (target here : Fin 80) :
    (cursorAfter (stepTowards target here))^[cursorDistance target here] here = target := by
  rw [iterate_stepTowards le_rfl]
  apply Fin.ext
  have htarget := target.isLt
  simp only [Fin.val_ofNat, cursorDistance, Fin.lt_def]
  split <;> omega

/-- Sending a byte again leaves the levels it left. -/
theorem foldl_afterByte_replicate (rs : Bit) (b : Byte) (n : Nat) (ls : LineSet) :
    (List.replicate n b).foldl (fun ls b => afterByte rs b ls) ls = if n = 0 then ls else afterByte rs b ls := by
  induction n generalizing ls with
  | zero => rfl
  | succ n ih =>
    rw [List.replicate_succ, List.foldl_cons, ih, if_neg n.succ_ne_zero]
    split <;> rfl

theorem flatMap_replicate_byteEvents (rs : Bit) (b : Byte) (n : Nat) :
    (List.replicate n b).flatMap (byteEvents rs) = (List.replicate n (byteEvents rs b)).flatten := by
  rw [List.flatMap_def, List.map_replicate]

theorem cellOfTarget_ofNat (target : Fin 80) : cellOfTarget (BitVec.ofNat 8 target.val) = some target := by
  have hval : (BitVec.ofNat 8 target.val).toNat = target.val := Nat.mod_eq_of_lt (by have := target.isLt; omega)
  rw [cellOfTarget, dif_pos (hval.trans_lt target.isLt)]
  exact congrArg some (Fin.ext hval)

/-- The body of a cursor request to a cell: the steps towards it. -/
theorem bodyOf_cursor (target here : Fin 80) :
    bodyOf (.cursor (BitVec.ofNat 8 target.val)) here
      = some (bytesBody false (stepTowards target here)
          (List.replicate (cursorDistance target here) (shiftTowards Config.commandBytes target here))) := by
  rw [bodyOf, cellOfTarget_ofNat, ← cursorBody_eq_steps]
  rfl

/-- Settles O31: the steps towards the target, as many as the linear distance. -/
theorem cursorCompletes : Obligations.CursorCompletes := by
  intro s target hlife hout here steps cmd ho
  have h := exec_bytesRequest (r := .cursor (BitVec.ofNat 8 target.val)) (bodyOf_cursor target here) nofun hlife hout
    (by rwa [List.length_replicate])
  rwa [List.length_replicate, flatMap_replicate_byteEvents, foldl_afterByte_replicate, iterate_stepTowards_distance] at h

/-- Settles O38: the cursor has made a step towards the target for each completed command. -/
theorem failedWriteEndsACursorMove : Obligations.FailedWriteEndsACursorMove := by
  intro s target k hlife hout here steps cmd hk ho
  have hcompleted : k / 16 ≤ cursorDistance target here := Nat.div_le_of_le_mul hk.le
  have h := exec_bytesRequest_failed (r := .cursor (BitVec.ofNat 8 target.val)) (bodyOf_cursor target here) nofun hlife hout
    (by rwa [List.length_replicate]) ho
  rwa [flatMap_replicate_byteEvents, iterate_stepTowards hcompleted] at h

end Sys2Proof.Machine
end

section
/-! PROOFS. The agents' steps: admission and its reply, cancellation, and a word driven alone beside its submission and admission. -/

namespace Sys2Proof.Machine

/-! ## An instruction and its reply -/

/-- An outcome that is an instruction's, answered to a caller: the reply is the status returned, where there is one. -/
theorem exec_replied {o : Host.Outcome State Fault Refusal} {c : Caller} {i : Instr} {s : State}
    (h : o = .next (replyReturned c (execState i s))) :
    ∃ t : State, exec i s = .next t ∧
      (∀ st : Status, t.returned = some st → o = .next { t with replies := s.replies ++ [⟨c, .status st⟩] }) ∧
      (t.returned = none → o = .next { t with replies := s.replies }) := by
  obtain ⟨_, _, _, _, _, hreplies, _⟩ := execState_frame i s
  rw [replyReturned_eq, hreplies] at h
  exact ⟨_, exec_eq .., fun st hst => by simp [h, hst], fun hnone => by simp [h, hnone]⟩

/-! ## Admission and cancellation -/

theorem step_input {s : State} {i : Input} {rest : List Input} (hb : s.bench = none) (hi : s.inputs = i :: rest) :
    step s = .next (inputState i { s with inputs := rest }) := by
  rw [step_eq, stepState_input hb hi]

/-- Settles O7: the member at a position is the one admitted, and its instruction is answered to its caller. -/
theorem stepAdmitsAPendingRequest : Obligations.StepAdmitsAPendingRequest := by
  intro s before after p rest hb hp hi
  have hadmit := admitState_at (s := { s with inputs := rest }) hp
  exact exec_replied ((step_input hb hi).trans (congrArg _ hadmit))

/-- An engine with a pending request that makes its own choice admits one of them. -/
theorem admitSomeState_pending {s : State} (h : s.engine.pending ≠ []) :
    ∃ before after p, s.engine.pending = before ++ p :: after ∧
      admitSomeState s = replyReturned p.caller (execState p.request.toInstr (setPending (before ++ after) (drawn s))) :=
  (admitState_cases _ (drawn s)).resolve_left fun hnone => h hnone.1

/-- Settles O8: the engine that proceeds is moved to the front and admits one of its own pending requests. -/
theorem engineTurnAdmitsSomePendingRequest : Obligations.EngineTurnAdmitsSomePendingRequest := by
  intro s hb hi
  have hstep : step s = .next (enginesState s) := by rw [step_eq, stepState_agents hb, agentsState, hi]
  rcases enginesState_cases s with ⟨hidle, he⟩ | ⟨j, d, hj, hd, hturn, he⟩
  · exact ⟨fun _ => by rw [hstep, he], fun ⟨d, hmem, hd⟩ => absurd (hidle d hmem) hd⟩
  · refine ⟨fun hnone => absurd (hnone d (List.mem_of_getElem? hj)) hd, fun _ => ?_⟩
    have hperm := turnTo_displays j { s with turns := s.turns + 1 }
    rw [hturn] at he hperm
    obtain ⟨before, after, p, hp, hadmit⟩ := admitSomeState_pending (s := { s with
      turns := s.turns + 1, engine := d.engine, oracle := d.oracle, others := (displays s).eraseIdx j }) hd
    obtain ⟨t, ht⟩ := exec_replied (hstep.trans (congrArg Host.Outcome.next (he.trans hadmit)))
    exact ⟨d, (displays s).eraseIdx j, before, after, p, t, hperm, hp, ht⟩

/-- Settles O14: the member at a position is the one cancelled. -/
theorem cancellationOnlyAbandons : Obligations.CancellationOnlyAbandons := by
  intro s before after p rest hb hp hi
  simp only [step_input hb hi, inputState, cancel, hp, pickFrom_at, reply, setPending]

/-! ## A word driven alone, and the same request submitted and admitted -/

theorem decodeReq16_word (r : Request) : decodeReq16 r.word r.payload = .ok r :=
  (decodeReq16_ok_iff ..).2 ⟨rfl, fun _ h => by rw [h]; rfl⟩

theorem submit_request {r : Request} (h : argumentOk r = true) (c : Caller) (s : State) :
    submit c r.word r.payload s = setPending (s.engine.pending ++ [⟨c, r⟩]) s := by
  simp only [submit, decodeReq16_word, enqueue, h, if_true]

/-- The last of `pending` admitted: the others stay as they are. -/
theorem admitState_last (ps : List Pending) (p : Pending) (s : State) :
    admitState ps.length (setPending (ps ++ [p]) s)
      = replyReturned p.caller (execState p.request.toInstr (setPending ps s)) := by
  rw [admitState_at (setPending_pending s (ps ++ [p])), List.append_nil]
  rfl

/-- Settles O10: the request submitted is the last of `pending`, so its admission leaves `pending` as it was and runs it there. -/
theorem presentedRequestIsSubmittedThenAdmitted : Obligations.PresentedRequestIsSubmittedThenAdmitted := by
  intro s caller r harg
  have hbench : step { s with bench := some r.packet } = exec r.toInstr { s with bench := none } :=
    (step_bench rfl).trans (runBench_ok (decodeWith_packet ..) _)
  rw [hbench]
  refine exec_replied ?_
  rw [core_run_succ _ (step_input rfl rfl), inputState, submit_request harg, core_run_succ _ (step_input rfl rfl), inputState]
  exact congrArg _ (admitState_last s.engine.pending ⟨caller, r⟩ { s with bench := none })

/-! ## Requests the lifecycle forbids -/

/-- A request outside the table, with an argument that passes, is a violation (44_dispatch.md R85). -/
theorem execState_forbidden {r : Request} {s : State} (harg : argumentOk r = true)
    (hforbidden : lifeAllows s.engine.life r = false) : execState r.toInstr s = lifecycleViolation r s := by
  obtain ⟨body, hb⟩ := bodyOf_toInstr harg s.engine.cursor
  simp only [execState, hb, requestOf_toInstr, admitted_forbidden hforbidden]

/-- Settles O43: the table, and the violation outside it. -/
theorem forbiddenRequestIsAViolation : Obligations.ForbiddenRequestIsAViolation := by
  refine ⟨fun r => ?_, fun r => ?_, fun r => ⟨rfl, rfl⟩, fun s r harg hforbidden => ?_⟩
  · simp [lifeAllows_iff]
  · simp [lifeAllows_iff]
  · rw [exec_eq, execState_forbidden harg hforbidden]
    rfl

end Sys2Proof.Machine
end

section
/-! PROOFS. The control surfaces and the readable ones. -/

namespace Sys2Proof.Machine

/-! ## Keywords -/

theorem requestOfKeyword_of_mem : ∀ row ∈ keywordTable, requestOfKeyword row.1 = some row.2 := by decide

theorem requestOfKeyword_eq_none {k : List Byte} (h : k ∉ keywordList) : requestOfKeyword k = none := by
  have hrow : ∀ row ∈ keywordTable, ¬(row.1 == k) = true := fun row hmem hk =>
    h (eq_of_beq hk ▸ List.mem_map_of_mem hmem)
  rw [requestOfKeyword, List.find?_eq_none.2 hrow, Option.map_none]

theorem payload_of_mem_keywordTable : ∀ row ∈ keywordTable, row.2.payload = [] := by decide

theorem text_word (p : List Byte) : (Request.text p).word = 0x3000#16 :=
  (by decide : 0x3#4 ++ 0#4 ++ 0#8 = 0x3000#16)

/-- The word of a cursor request (30_encoding.md R48). -/
theorem cursor_word (n : Byte) : (Request.cursor n).word = 0xA000#16 + n.zeroExtend 16 := by
  have hop : 0xA#4 ++ 0#4 = 0xA0#8 := by decide
  apply BitVec.eq_of_toNat_eq
  rw [Request.word, Request.op, Request.arg, hop, BitVec.toNat_append, ← Nat.shiftLeft_add_eq_or_of_lt n.isLt]
  bv_omega

/-! ## Surfaces -/

/-- A surface that maps to a request submits its word and payload (44_dispatch.md R89). -/
theorem step_surface {s : State} {c : Caller} {sf : Surface} {rest : List Input} {r : Request} {w : BitVec 16}
    {p : List Byte} (hb : s.bench = none) (hi : s.inputs = .surface c sf :: rest) (hr : requestOfSurface sf = some r)
    (hw : r.word = w) (hp : r.payload = p) : step s = .next (submit c w p { s with inputs := rest }) := by
  rw [step_input hb hi, inputState, useSurface, hr, ← hw, ← hp]

/-- A surface that maps to none is an argument error at once. -/
theorem step_surface_none {s : State} {c : Caller} {sf : Surface} {rest : List Input} (hb : s.bench = none)
    (hi : s.inputs = .surface c sf :: rest) (hr : requestOfSurface sf = none) :
    step s = .next (reply c (.status .eArg) { s with inputs := rest }) := by
  rw [step_input hb hi, inputState, useSurface, hr]

/-- Settles O15: what each surface maps to, and the words of those requests. -/
theorem surfacesMapToTheirRequests : Obligations.SurfacesMapToTheirRequests := by
  intro s caller rest hb
  refine ⟨fun k hi => ⟨?_, fun hk => step_surface_none hb hi (requestOfKeyword_eq_none hk)⟩, fun p hi => ?_, fun n hi => ?_,
    fun hi => ?_, fun hi => ?_⟩
  · rintro q hq rfl
    obtain ⟨row, hrow, rfl⟩ : ∃ row ∈ keywordTable, (row.1, row.2.word) = q := List.mem_map.1 hq
    exact step_surface hb hi (requestOfKeyword_of_mem row hrow) rfl (payload_of_mem_keywordTable row hrow)
  · exact step_surface hb hi (r := .text p) rfl (text_word p) rfl
  · exact step_surface hb hi (r := .cursor n) rfl (cursor_word n) rfl
  · exact step_surface hb hi (r := .init) rfl rfl rfl
  · exact step_surface hb hi (r := .deinit) rfl rfl rfl

/-- Settles O16: the table's keywords are the six in their order. -/
theorem readableSurfacesOnlyAnswer : Obligations.ReadableSurfacesOnlyAnswer :=
  fun _ _ _ hb => ⟨fun hi => step_input hb hi, fun hi => step_input hb hi⟩

end Sys2Proof.Machine
end

section
/-! PROOFS. Pending texts of one character, admitted one after another in any order. -/

namespace Sys2Proof.Machine

/-- A READY engine on outputs, every pending request a text of the one byte `b`, and as many admissions to come as are pending, with
answers that are ok for all of them. -/
structure TextsPending (b : Byte) (order : List Nat) (s : State) : Prop where
  bench : s.bench = none
  ready : s.engine.life = .ready
  outputs : Outputs s.engine.lines
  texts : ∀ p ∈ s.engine.pending, p.request = .text [b]
  length : order.length = s.engine.pending.length
  inputs : s.inputs = order.map .admitOne
  answers : reliable (16 * order.length) s.oracle = true

/-- `n` of the pending texts were served between two states: the cursor moved by `n`, `n` characters follow each other in the trace,
and the callers no longer in `pending` were answered OK. -/
structure TextsServed (b : Byte) (n : Nat) (s t : State) : Prop where
  cursor : t.engine.cursor = Fin.ofNat 80 (s.engine.cursor.val + n)
  trace : t.engine.trace = s.engine.trace ++ (List.replicate n (byteEvents true b)).flatten
  replies : ∃ answered : List Caller,
    (answered ++ t.engine.pending.map Pending.caller).Perm (s.engine.pending.map Pending.caller) ∧
      t.replies = s.replies ++ answered.map fun c => ⟨c, .status .ok⟩

theorem TextsServed.refl (b : Byte) (s : State) : TextsServed b 0 s s where
  cursor := by simp
  trace := by simp
  replies := ⟨[], .refl _, by simp⟩

theorem TextsServed.trans {b : Byte} {m n : Nat} {s t u : State} (h : TextsServed b m s t) (h' : TextsServed b n t u) :
    TextsServed b (m + n) s u where
  cursor := by
    rw [h'.cursor, h.cursor]
    apply Fin.ext
    simp only [Fin.val_ofNat]
    omega
  trace := by rw [h'.trace, h.trace, List.replicate_add, List.flatten_append, List.append_assoc]
  replies := by
    obtain ⟨first, hfirst, hr⟩ := h.replies
    obtain ⟨second, hsecond, hr'⟩ := h'.replies
    refine ⟨first ++ second, ?_, by rw [hr', hr, List.map_append, List.append_assoc]⟩
    rw [List.append_assoc]
    exact (hsecond.append_left first).trans hfirst

/-- A text of one byte on outputs that answer (43_operations.md R72). -/
theorem execState_text_single {b : Byte} {s : State} (hlife : s.engine.life = .ready) (hout : Outputs s.engine.lines)
    (ho : reliable 16 s.oracle = true) :
    execState (.text [b]) s
      = succeeded (byteEvents true b) (afterByte true b s.engine.lines) (Fin.ofNat 80 (s.engine.cursor.val + 1)) .ready 16 s := by
  have h := textCompletes s [b] hlife hout ho
  rw [exec_eq] at h
  simpa using Host.Outcome.next.inj h

/-- An admission among texts of one byte serves one of them, whichever it picks. -/
theorem admitState_text {b : Byte} {s : State} (k : Nat) (hpending : s.engine.pending ≠ [])
    (htexts : ∀ p ∈ s.engine.pending, p.request = .text [b]) (hlife : s.engine.life = .ready) (hout : Outputs s.engine.lines)
    (ho : reliable 16 s.oracle = true) :
    ∃ before p after, s.engine.pending = before ++ p :: after ∧
      admitState k s = reply p.caller (.status .ok)
        (succeeded (byteEvents true b) (afterByte true b s.engine.lines) (Fin.ofNat 80 (s.engine.cursor.val + 1)) .ready 16
          (setPending (before ++ after) s)) := by
  obtain ⟨before, after, p, hp, he⟩ := (admitState_cases k s).resolve_left fun hnone => hpending hnone.1
  have hrequest : p.request = .text [b] := htexts p (by simp [hp])
  have hserved := execState_text_single (b := b) (s := setPending (before ++ after) s) hlife hout ho
  exact ⟨before, p, after, hp, by rw [he, hrequest, Request.toInstr, hserved]; rfl⟩

/-- An admission serves one text, and leaves the others pending as they were. -/
theorem TextsPending.step {b : Byte} {k : Nat} {order : List Nat} {s : State} (h : TextsPending b (k :: order) s) :
    ∃ t, step s = .next t ∧ TextsPending b order t ∧ TextsServed b 1 s t := by
  have hanswers : reliable 16 s.oracle = true ∧ reliable (16 * order.length) (skipAnswers 16 s.oracle) = true := by
    rw [← reliable_add, Nat.add_comm]
    exact h.answers
  have hpending : s.engine.pending ≠ [] := List.ne_nil_of_length_eq_add_one h.length.symm
  obtain ⟨before, p, after, hp, he⟩ := admitState_text (s := { s with inputs := order.map .admitOne }) k hpending h.texts
    h.ready h.outputs hanswers.1
  replace hp : s.engine.pending = before ++ p :: after := hp
  have hlength := h.length
  refine ⟨_, (step_input h.bench h.inputs).trans (congrArg _ he), ?_, ?_⟩
  · exact
      { bench := h.bench
        ready := rfl
        outputs := outputs_afterByte true b h.outputs
        texts := fun q hq => h.texts q (hp ▸ ((List.sublist_cons_self p after).append_left before).subset hq)
        length := by
          rw [hp, List.length_append, List.length_cons, List.length_cons] at hlength
          exact (Nat.succ.inj hlength).trans List.length_append.symm
        inputs := rfl
        answers := hanswers.2 }
  · exact
      { cursor := rfl
        trace := by rw [List.replicate_one, List.flatten_singleton]; rfl
        replies := ⟨[p.caller], by rw [hp]; exact List.perm_middle.symm.map Pending.caller, rfl⟩ }

/-- All the pending texts, in any order of admission. -/
theorem TextsPending.run {b : Byte} {order : List Nat} {s : State} (h : TextsPending b order s) :
    ∃ t, core.run order.length s = .next t ∧ TextsPending b [] t ∧ TextsServed b order.length s t := by
  induction order generalizing s with
  | nil => exact ⟨s, rfl, h, .refl b s⟩
  | cons k order ih =>
    obtain ⟨t, hstep, hpending, hserved⟩ := h.step
    obtain ⟨u, hrun, hend, hrest⟩ := ih hpending
    refine ⟨u, (core_run_succ _ hstep).trans hrun, hend, ?_⟩
    rw [List.length_cons, Nat.add_comm]
    exact hserved.trans hrest

/-- Settles O56: the admissions serve the texts one after another, and none is left. -/
theorem concurrentTextsAreSerialized : Obligations.ConcurrentTextsAreSerialized := by
  intro s order hbench hready hout htexts hlength hinputs hanswers
  obtain ⟨t, hrun, hend, hserved⟩ := TextsPending.run ⟨hbench, hready, hout, htexts, hlength, hinputs, hanswers⟩
  have hnil : t.engine.pending = [] := List.eq_nil_of_length_eq_zero hend.length.symm
  obtain ⟨answered, hperm, hreplies⟩ := hserved.replies
  rw [hnil, List.map_nil, List.append_nil] at hperm
  exact ⟨t, hrun, hserved.cursor, hnil, hserved.trace, answered, hperm, hreplies⟩

end Sys2Proof.Machine
end

section
/-! PROOFS. No state stops the machine. -/

namespace Sys2Proof.Machine

/-- Settles O9: `step_eq` names the next state, a word's driven alone (`runBench_eq`) or an agent's (`runAgents_eq`). Either way an
instruction ends in a state, with its errors as statuses (`exec_eq`; 60_exceptions.md R97, R98). -/
theorem everyStepAnswersNext : Obligations.EveryStepAnswersNext :=
  fun s => ⟨stepState s, step_eq s⟩

end Sys2Proof.Machine
end

section
/-! PROOFS. Least times and numbers of events: both add up along a trace. -/

namespace Sys2Proof.Machine

/-! ## Traces one after another -/

@[simp] theorem minTime_append (xs ys : List Event) : minTime (xs ++ ys) = minTime xs + minTime ys := by
  induction xs with
  | nil => exact (Nat.zero_add _).symm
  | cons x xs ih => cases x <;> simp only [List.cons_append, minTime, ih, Nat.add_assoc]

/-- Blocks that take one time each. -/
theorem minTime_flatMap {α : Type} {f : α → List Event} {t : Nat} (h : ∀ x, minTime (f x) = t) (xs : List α) :
    minTime (xs.flatMap f) = t * xs.length := by
  induction xs with
  | nil => rfl
  | cons x xs ih => rw [List.flatMap_cons, minTime_append, h, ih, List.length_cons, Nat.mul_succ, Nat.add_comm]

/-! ## The transmissions -/

/-- The two holds of the enable line and the wait after them (41_transmission.md R63). -/
@[simp] theorem minTime_nibbleEvents (n : Nibble) : minTime (nibbleEvents n) = 102 := rfl

@[simp] theorem length_nibbleEvents (n : Nibble) : (nibbleEvents n).length = 10 := rfl

/-- A byte's two nibbles; RS and RW take no time (41_transmission.md R65, R66). -/
@[simp] theorem minTime_byteEvents (rs : Bit) (b : Byte) : minTime (byteEvents rs b) = 204 := by
  simp [byteEvents, minTime]

@[simp] theorem length_byteEvents (rs : Bit) (b : Byte) : (byteEvents rs b).length = 22 := by
  simp [byteEvents]

theorem minTime_flatMap_byteEvents (rs : Bit) (bs : List Byte) : minTime (bs.flatMap (byteEvents rs)) = 204 * bs.length :=
  minTime_flatMap (minTime_byteEvents rs) bs

theorem length_flatMap_byteEvents (rs : Bit) (bs : List Byte) : (bs.flatMap (byteEvents rs)).length = 22 * bs.length := by
  simp [List.length_flatMap, Nat.mul_comm]

/-! ## INIT -/

/-- INIT's own waits, four nibbles and four commands (42_lifecycle.md R67). -/
theorem minTime_initEvents (c : CommandBytes) : minTime (initEvents c) = 1048324 := by
  simp [initEvents, minTime]

theorem length_initEvents (c : CommandBytes) : (initEvents c).length = 142 := by
  simp [initEvents]

/-- Settles O34: each list is a sum of nibbles, bytes and waits, and the steps of a cursor are a list of equal bytes. -/
theorem leastTimesAndEventCounts : Obligations.LeastTimesAndEventCounts := by
  intro c rs b n p k
  refine ⟨rfl, ?byte, ?init, ?homing, ?waiting, ?text, ?cursor⟩
  case byte => rw [minTime_byteEvents, length_byteEvents]
  case init => rw [minTime_initEvents, length_initEvents]
  case homing | waiting =>
    rw [minTime_append, List.length_append, minTime_byteEvents, length_byteEvents]
    rfl
  case text => rw [minTime_flatMap_byteEvents, length_flatMap_byteEvents]
  case cursor =>
    rw [← flatMap_replicate_byteEvents, minTime_flatMap_byteEvents, length_flatMap_byteEvents, List.length_replicate]

end Sys2Proof.Machine
end

section
/-! PROOFS. The invariants at reset. -/

namespace Sys2Proof.Machine

/-- The only engine at reset is a fresh one (70_reset_and_hazards.md R107). -/
theorem everyEngine_reset {P : Engine → Prop} (h : ∀ l, P (Engine.fresh l)) : EveryEngine P State.reset :=
  (everyEngine_iff P State.reset).2 ⟨h _, fun _ hd => nomatch hd⟩

/-- Settles O54: a fresh engine meets each of the invariants, and no word is driven at reset. -/
theorem resetMeetsTheInvariants : Obligations.ResetMeetsTheInvariants :=
  ⟨everyEngine_reset tracked_fresh, everyEngine_reset outputsHoldLevels_fresh,
    { bench := rfl, engines := everyEngine_reset engineInv_fresh }, everyEngine_reset fun l => (pairedInv_fresh l).paired⟩

end Sys2Proof.Machine
end
